-- ==== Sys2Proof/Word.lean ====
section
/-! DEFINITION. The word, halfword and byte types of the hart (spec 00_scope.md R5). Arithmetic on a `Word` is modulo 2^32. -/

namespace Sys2Proof

/-- A register value, an address or an instruction word: 32 bits (R4, R5). -/
abbrev Word := BitVec 32

/-- A memory byte (R20). -/
abbrev Byte := BitVec 8

end Sys2Proof
end

