-- ==== Sys2Proof/Machine/Flags.lean ====
section
/-! DEFINITION. The hart has no flags or condition codes (spec 10_state.md R22): set-less-than and branches compare registers
directly. This file holds those comparisons (spec 40_alu_register.md R85, R86, 44_branches.md R142 to R147). -/

namespace Sys2Proof.Machine

/-- `a <s b`. -/
def lessSigned (a b : Word) : Bool := a.toInt < b.toInt

/-- `a <u b`. -/
def lessUnsigned (a b : Word) : Bool := a.toNat < b.toNat

/-- The 32-bit value 1 or 0 of a set-less-than (R85, R86). -/
def boolWord (c : Bool) : Word := if c then 1#32 else 0#32

end Sys2Proof.Machine
end

