-- ==== Sys2Proof/Config.lean ====
section
/-! DEFINITION. The parameters of the hardware (spec 00_scope.md R4, 10_state.md R25), its two fill constants, and the one
free value of the model. -/

namespace Sys2Proof

/-- The OPEN parameter `FENCE_MODE` (R4, R163, decision D4). -/
inductive FenceMode where
  /-- FENCE matches no instruction: the default. -/
  | illegal
  /-- FENCE is accepted and only advances the pc. -/
  | nop
deriving DecidableEq, Repr

/-- The parameters fixed for a run (R25). The bound on `memSizeCfg` is the spec's `MEM_SIZE_CFG <= 0xFFFFFFF0` (R20, D13):
a larger configuration, which U13 tells a model to refuse, has no value of this type. -/
structure Config where
  /-- `MEM_SIZE_CFG`, the configured memory size in bytes. -/
  memSizeCfg : Fin 0xFFFFFFF1
  /-- `FENCE_MODE`. -/
  fenceMode : FenceMode
deriving DecidableEq, Repr

/-- The default parameters (R4): `MEM_SIZE_CFG = 0x100`, `FENCE_MODE = illegal`. -/
def Config.default : Config := { memSizeCfg := ⟨0x100, by decide⟩, fenceMode := .illegal }

/-- `MEM_FILL`: the byte every memory cell holds before the image is loaded (R4, R202). -/
def memFill : Byte := 0xA5#8

/-- `REG_FILL`: the value of x1 .. x31 after reset (R4, R201). -/
def regFill : Word := 0xF0F0F0F0#32

/-- FREE VALUE (log entry 6): the k-th choice of where a warning stands among the warnings of its own access. The spec leaves
that order open (R35, U6), so this has no body: no proof can see a value of it. -/
opaque Config.freeOrder : Nat → Nat

end Sys2Proof
end

