-- ==== Sys2Proof/Syntax.lean ====
section
/-! DEFINITION. The 46 instructions of the hart, one constructor per row of spec/opcode_table.json (spec 30_encoding.md R60, R73). -/

namespace Sys2Proof

/-- A general register's index (R10): `x0` is `0`. -/
abbrev Reg := Fin 32

/-- An instruction with its operands as its format encodes them (R52). Immediates are kept at the width of their field and
are extended by the machine: `imm` of an I- or S-type is the 12-bit field (R53, R54), `off` of a branch the 13-bit and of JAL
the 21-bit even displacement (R55, R57), `imm20` the upper 20 bits (R56). -/
inductive Instr where
  /-- LUI (R156) -/
  | lui (rd : Reg) (imm20 : BitVec 20)
  /-- AUIPC (R157) -/
  | auipc (rd : Reg) (imm20 : BitVec 20)
  /-- JAL (R150) -/
  | jal (rd : Reg) (off : BitVec 21)
  /-- JALR (R151) -/
  | jalr (rd rs1 : Reg) (imm : BitVec 12)
  /-- BEQ (R142) -/
  | beq (rs1 rs2 : Reg) (off : BitVec 13)
  /-- BNE (R143) -/
  | bne (rs1 rs2 : Reg) (off : BitVec 13)
  /-- BLT (R144) -/
  | blt (rs1 rs2 : Reg) (off : BitVec 13)
  /-- BGE (R145) -/
  | bge (rs1 rs2 : Reg) (off : BitVec 13)
  /-- BLTU (R146) -/
  | bltu (rs1 rs2 : Reg) (off : BitVec 13)
  /-- BGEU (R147) -/
  | bgeu (rs1 rs2 : Reg) (off : BitVec 13)
  /-- LB (R122) -/
  | lb (rd rs1 : Reg) (imm : BitVec 12)
  /-- LH (R123) -/
  | lh (rd rs1 : Reg) (imm : BitVec 12)
  /-- LW (R124) -/
  | lw (rd rs1 : Reg) (imm : BitVec 12)
  /-- LBU (R125) -/
  | lbu (rd rs1 : Reg) (imm : BitVec 12)
  /-- LHU (R126) -/
  | lhu (rd rs1 : Reg) (imm : BitVec 12)
  /-- SB (R132): base `rs1`, data `rs2` -/
  | sb (rs1 rs2 : Reg) (imm : BitVec 12)
  /-- SH (R133): base `rs1`, data `rs2` -/
  | sh (rs1 rs2 : Reg) (imm : BitVec 12)
  /-- SW (R134): base `rs1`, data `rs2` -/
  | sw (rs1 rs2 : Reg) (imm : BitVec 12)
  /-- ADDI (R101) -/
  | addi (rd rs1 : Reg) (imm : BitVec 12)
  /-- SLTI (R102) -/
  | slti (rd rs1 : Reg) (imm : BitVec 12)
  /-- SLTIU (R103) -/
  | sltiu (rd rs1 : Reg) (imm : BitVec 12)
  /-- XORI (R104) -/
  | xori (rd rs1 : Reg) (imm : BitVec 12)
  /-- ORI (R105) -/
  | ori (rd rs1 : Reg) (imm : BitVec 12)
  /-- ANDI (R106) -/
  | andi (rd rs1 : Reg) (imm : BitVec 12)
  /-- SLLI (R107) -/
  | slli (rd rs1 : Reg) (shamt : BitVec 5)
  /-- SRLI (R108) -/
  | srli (rd rs1 : Reg) (shamt : BitVec 5)
  /-- SRAI (R109) -/
  | srai (rd rs1 : Reg) (shamt : BitVec 5)
  /-- ADD (R82) -/
  | add (rd rs1 rs2 : Reg)
  /-- SUB (R83) -/
  | sub (rd rs1 rs2 : Reg)
  /-- SLL (R84) -/
  | sll (rd rs1 rs2 : Reg)
  /-- SLT (R85) -/
  | slt (rd rs1 rs2 : Reg)
  /-- SLTU (R86) -/
  | sltu (rd rs1 rs2 : Reg)
  /-- XOR (R87) -/
  | xor (rd rs1 rs2 : Reg)
  /-- SRL (R88) -/
  | srl (rd rs1 rs2 : Reg)
  /-- SRA (R89) -/
  | sra (rd rs1 rs2 : Reg)
  /-- OR (R90) -/
  | or (rd rs1 rs2 : Reg)
  /-- AND (R91) -/
  | and (rd rs1 rs2 : Reg)
  /-- FENCE (R163): every field is decoded and none is used -/
  | fence (fm pred succ : BitVec 4) (rs1 rd : Reg)
  /-- ECALL (R160) -/
  | ecall
  /-- EBREAK (R161) -/
  | ebreak
  /-- CSRRW stub (R165) -/
  | csrrw (rd : Reg) (csr : BitVec 12) (rs1 : Reg)
  /-- CSRRS stub (R166) -/
  | csrrs (rd : Reg) (csr : BitVec 12) (rs1 : Reg)
  /-- CSRRC stub (R167) -/
  | csrrc (rd : Reg) (csr : BitVec 12) (rs1 : Reg)
  /-- CSRRWI stub (R168) -/
  | csrrwi (rd : Reg) (csr : BitVec 12) (uimm : BitVec 5)
  /-- CSRRSI stub (R169) -/
  | csrrsi (rd : Reg) (csr : BitVec 12) (uimm : BitVec 5)
  /-- CSRRCI stub (R170) -/
  | csrrci (rd : Reg) (csr : BitVec 12) (uimm : BitVec 5)
deriving DecidableEq, Repr

end Sys2Proof
end

