-- ==== Sys2Proof/Decode.lean ====
section
/-! DEFINITION. The decoder, total on every word and every byte list (spec 30_encoding.md R50 to R69), the encoder written from
the same formats, and the opcode table as data (R60 to R68). -/

namespace Sys2Proof

/-! ## Field extraction (R51, R53 to R59) -/

/-- `v` placed with its bit 0 at bit `lo` of an otherwise zero vector of `n` bits: concatenation (R5) is the OR of such parts. -/
def place {k : Nat} (n lo : Nat) (v : BitVec k) : BitVec n := v.setWidth n <<< lo

/-- `v` read as a register index. -/
def regOf (v : BitVec 5) : Reg := ⟨v.toNat, v.isLt⟩
def opcodeOf (w : Word) : BitVec 7 := w.extractLsb' 0 7
def rdOf (w : Word) : Reg := regOf (w.extractLsb' 7 5)
def funct3Of (w : Word) : BitVec 3 := w.extractLsb' 12 3
def rs1Of (w : Word) : Reg := regOf (w.extractLsb' 15 5)
def rs2Of (w : Word) : Reg := regOf (w.extractLsb' 20 5)
def funct7Of (w : Word) : BitVec 7 := w.extractLsb' 25 7
/-- `insn[31:20]`, the field of the I-immediate (R53) and of the CSR address (R59). -/
def immIOf (w : Word) : BitVec 12 := w.extractLsb' 20 12
/-- `insn[31:25] ++ insn[11:7]` (R54). -/
def immSOf (w : Word) : BitVec 12 := place 12 5 (w.extractLsb' 25 7) ||| place 12 0 (w.extractLsb' 7 5)
/-- `insn[31] ++ insn[7] ++ insn[30:25] ++ insn[11:8] ++ 0` (R55). -/
def immBOf (w : Word) : BitVec 13 :=
  place 13 12 (w.extractLsb' 31 1) ||| place 13 11 (w.extractLsb' 7 1) ||| place 13 5 (w.extractLsb' 25 6)
    ||| place 13 1 (w.extractLsb' 8 4)
/-- `insn[31:12]` (R56). -/
def immUOf (w : Word) : BitVec 20 := w.extractLsb' 12 20
/-- `insn[31] ++ insn[19:12] ++ insn[20] ++ insn[30:21] ++ 0` (R57). -/
def immJOf (w : Word) : BitVec 21 :=
  place 21 20 (w.extractLsb' 31 1) ||| place 21 12 (w.extractLsb' 12 8) ||| place 21 11 (w.extractLsb' 20 1)
    ||| place 21 1 (w.extractLsb' 21 10)
/-- `insn[24:20]` as a shift amount (R58). -/
def shamtOf (w : Word) : BitVec 5 := w.extractLsb' 20 5
/-- `insn[19:15]` as an unsigned immediate (R59). -/
def uimmOf (w : Word) : BitVec 5 := w.extractLsb' 15 5

/-! ## The decoder -/

/-- Why a word is no instruction. The hart makes no difference between them: each halts it with "Illegal instruction" (R69). -/
inductive Reject where
  /-- The opcode is not one of R61 (with FENCE_MODE = illegal, MISC-MEM is not). -/
  | unknownOpcode
  /-- The opcode is known, funct3 is not enumerated for it (R64 to R68). -/
  | unknownFunct3
  /-- opcode and funct3 are known, funct7 is not enumerated for them (R62, R63). -/
  | unknownFunct7
  /-- SYSTEM with funct3 000 that is neither ECALL nor EBREAK (R162). -/
  | unknownSystem
  /-- Fewer than four bytes were given; a fetch always gives four (R50). -/
  | tooShort
deriving DecidableEq, Repr

/-- The decoder's answer (R60). -/
inductive Verdict where
  | instr (i : Instr)
  | illegal (why : Reject)
deriving DecidableEq, Repr

/-- The instruction of a verdict, if it is one. -/
def Verdict.instr? : Verdict → Option Instr
  | .instr i => some i
  | .illegal _ => none

/-- OP (R62). -/
def decodeOp (w : Word) : Verdict :=
  match funct3Of w with
  | 0b000#3 =>
    match funct7Of w with
    | 0b0000000#7 => .instr (.add (rdOf w) (rs1Of w) (rs2Of w))
    | 0b0100000#7 => .instr (.sub (rdOf w) (rs1Of w) (rs2Of w))
    | _ => .illegal .unknownFunct7
  | 0b001#3 => if funct7Of w = 0b0000000#7 then .instr (.sll (rdOf w) (rs1Of w) (rs2Of w)) else .illegal .unknownFunct7
  | 0b010#3 => if funct7Of w = 0b0000000#7 then .instr (.slt (rdOf w) (rs1Of w) (rs2Of w)) else .illegal .unknownFunct7
  | 0b011#3 => if funct7Of w = 0b0000000#7 then .instr (.sltu (rdOf w) (rs1Of w) (rs2Of w)) else .illegal .unknownFunct7
  | 0b100#3 => if funct7Of w = 0b0000000#7 then .instr (.xor (rdOf w) (rs1Of w) (rs2Of w)) else .illegal .unknownFunct7
  | 0b101#3 =>
    match funct7Of w with
    | 0b0000000#7 => .instr (.srl (rdOf w) (rs1Of w) (rs2Of w))
    | 0b0100000#7 => .instr (.sra (rdOf w) (rs1Of w) (rs2Of w))
    | _ => .illegal .unknownFunct7
  | 0b110#3 => if funct7Of w = 0b0000000#7 then .instr (.or (rdOf w) (rs1Of w) (rs2Of w)) else .illegal .unknownFunct7
  | 0b111#3 => if funct7Of w = 0b0000000#7 then .instr (.and (rdOf w) (rs1Of w) (rs2Of w)) else .illegal .unknownFunct7
  | _ => .illegal .unknownFunct3

/-- OP-IMM (R63, R58). -/
def decodeOpImm (w : Word) : Verdict :=
  match funct3Of w with
  | 0b000#3 => .instr (.addi (rdOf w) (rs1Of w) (immIOf w))
  | 0b010#3 => .instr (.slti (rdOf w) (rs1Of w) (immIOf w))
  | 0b011#3 => .instr (.sltiu (rdOf w) (rs1Of w) (immIOf w))
  | 0b100#3 => .instr (.xori (rdOf w) (rs1Of w) (immIOf w))
  | 0b110#3 => .instr (.ori (rdOf w) (rs1Of w) (immIOf w))
  | 0b111#3 => .instr (.andi (rdOf w) (rs1Of w) (immIOf w))
  | 0b001#3 => if funct7Of w = 0b0000000#7 then .instr (.slli (rdOf w) (rs1Of w) (shamtOf w)) else .illegal .unknownFunct7
  | 0b101#3 =>
    match funct7Of w with
    | 0b0000000#7 => .instr (.srli (rdOf w) (rs1Of w) (shamtOf w))
    | 0b0100000#7 => .instr (.srai (rdOf w) (rs1Of w) (shamtOf w))
    | _ => .illegal .unknownFunct7
  | _ => .illegal .unknownFunct3

/-- LOAD (R64). -/
def decodeLoad (w : Word) : Verdict :=
  match funct3Of w with
  | 0b000#3 => .instr (.lb (rdOf w) (rs1Of w) (immIOf w))
  | 0b001#3 => .instr (.lh (rdOf w) (rs1Of w) (immIOf w))
  | 0b010#3 => .instr (.lw (rdOf w) (rs1Of w) (immIOf w))
  | 0b100#3 => .instr (.lbu (rdOf w) (rs1Of w) (immIOf w))
  | 0b101#3 => .instr (.lhu (rdOf w) (rs1Of w) (immIOf w))
  | _ => .illegal .unknownFunct3

/-- STORE (R65). -/
def decodeStore (w : Word) : Verdict :=
  match funct3Of w with
  | 0b000#3 => .instr (.sb (rs1Of w) (rs2Of w) (immSOf w))
  | 0b001#3 => .instr (.sh (rs1Of w) (rs2Of w) (immSOf w))
  | 0b010#3 => .instr (.sw (rs1Of w) (rs2Of w) (immSOf w))
  | _ => .illegal .unknownFunct3

/-- BRANCH (R66). -/
def decodeBranch (w : Word) : Verdict :=
  match funct3Of w with
  | 0b000#3 => .instr (.beq (rs1Of w) (rs2Of w) (immBOf w))
  | 0b001#3 => .instr (.bne (rs1Of w) (rs2Of w) (immBOf w))
  | 0b100#3 => .instr (.blt (rs1Of w) (rs2Of w) (immBOf w))
  | 0b101#3 => .instr (.bge (rs1Of w) (rs2Of w) (immBOf w))
  | 0b110#3 => .instr (.bltu (rs1Of w) (rs2Of w) (immBOf w))
  | 0b111#3 => .instr (.bgeu (rs1Of w) (rs2Of w) (immBOf w))
  | _ => .illegal .unknownFunct3

/-- SYSTEM (R67): ECALL and EBREAK are whole words (R162), the CSR stubs go by funct3. -/
def decodeSystem (w : Word) : Verdict :=
  match funct3Of w with
  | 0b000#3 =>
    if w = 0x00000073#32 then .instr .ecall
    else if w = 0x00100073#32 then .instr .ebreak
    else .illegal .unknownSystem
  | 0b001#3 => .instr (.csrrw (rdOf w) (immIOf w) (rs1Of w))
  | 0b010#3 => .instr (.csrrs (rdOf w) (immIOf w) (rs1Of w))
  | 0b011#3 => .instr (.csrrc (rdOf w) (immIOf w) (rs1Of w))
  | 0b101#3 => .instr (.csrrwi (rdOf w) (immIOf w) (uimmOf w))
  | 0b110#3 => .instr (.csrrsi (rdOf w) (immIOf w) (uimmOf w))
  | 0b111#3 => .instr (.csrrci (rdOf w) (immIOf w) (uimmOf w))
  | _ => .illegal .unknownFunct3

/-- MISC-MEM (R67): no row has this opcode unless FENCE_MODE = nop. -/
def decodeMiscMem (mode : FenceMode) (w : Word) : Verdict :=
  match mode with
  | .illegal => .illegal .unknownOpcode
  | .nop =>
    if funct3Of w = 0b000#3 then
      .instr (.fence (w.extractLsb' 28 4) (w.extractLsb' 24 4) (w.extractLsb' 20 4) (rs1Of w) (rdOf w))
    else .illegal .unknownFunct3

/-- The decoder (R60, R61, R68): opcode, then funct3, then funct7. -/
def decode (mode : FenceMode) (w : Word) : Verdict :=
  match opcodeOf w with
  | 0b0110111#7 => .instr (.lui (rdOf w) (immUOf w))
  | 0b0010111#7 => .instr (.auipc (rdOf w) (immUOf w))
  | 0b1101111#7 => .instr (.jal (rdOf w) (immJOf w))
  | 0b1100111#7 =>
    if funct3Of w = 0b000#3 then .instr (.jalr (rdOf w) (rs1Of w) (immIOf w)) else .illegal .unknownFunct3
  | 0b1100011#7 => decodeBranch w
  | 0b0000011#7 => decodeLoad w
  | 0b0100011#7 => decodeStore w
  | 0b0010011#7 => decodeOpImm w
  | 0b0110011#7 => decodeOp w
  | 0b0001111#7 => decodeMiscMem mode w
  | 0b1110011#7 => decodeSystem w
  | _ => .illegal .unknownOpcode

/-- The little-endian word of four bytes, `b0` at the lowest address (R30). -/
def wordOfBytes (b0 b1 b2 b3 : Byte) : Word :=
  place 32 24 b3 ||| place 32 16 b2 ||| place 32 8 b1 ||| place 32 0 b0

/-- The decoder on a byte list in address order: the first four bytes are the word. -/
def decodeBytes (mode : FenceMode) : List Byte → Verdict
  | b0 :: b1 :: b2 :: b3 :: _ => decode mode (wordOfBytes b0 b1 b2 b3)
  | _ => .illegal .tooShort

/-- The bytes of a word in ascending address order (R30). -/
def bytesOfWord (w : Word) : List Byte :=
  [w.extractLsb' 0 8, w.extractLsb' 8 8, w.extractLsb' 16 8, w.extractLsb' 24 8]

/-- What the decoder reads from the first `nbits` bits of `w`, laid out as the hardware stores them. The opcode table holds the
FENCE row, which stands under `FENCE_MODE = nop`, so the table's words are read in that mode (log entry 3). -/
def decodeTableWord (nbits w : Nat) : Option Instr :=
  (decodeBytes .nop (bytesOfWord (BitVec.ofNat 32 (w % 2 ^ nbits)))).instr?

/-! ## The encoder, from the formats of R52 -/

/-- A register index as its field. -/
def regField (r : Reg) : BitVec 5 := BitVec.ofNat 5 r.val

/-- R-type. -/
def encR (f7 : BitVec 7) (f3 : BitVec 3) (op : BitVec 7) (rd rs1 rs2 : Reg) : Word :=
  place 32 25 f7 ||| place 32 20 (regField rs2) ||| place 32 15 (regField rs1) ||| place 32 12 f3
    ||| place 32 7 (regField rd) ||| place 32 0 op

/-- I-type. -/
def encI (f3 : BitVec 3) (op : BitVec 7) (rd rs1 : Reg) (imm : BitVec 12) : Word :=
  place 32 20 imm ||| place 32 15 (regField rs1) ||| place 32 12 f3 ||| place 32 7 (regField rd) ||| place 32 0 op

/-- Immediate shift: I-type with its immediate split as in R58. -/
def encShift (f7 : BitVec 7) (f3 : BitVec 3) (rd rs1 : Reg) (shamt : BitVec 5) : Word :=
  place 32 25 f7 ||| place 32 20 shamt ||| place 32 15 (regField rs1) ||| place 32 12 f3
    ||| place 32 7 (regField rd) ||| place 32 0 0b0010011#7

/-- S-type. -/
def encS (f3 : BitVec 3) (rs1 rs2 : Reg) (imm : BitVec 12) : Word :=
  place 32 25 (imm.extractLsb' 5 7) ||| place 32 20 (regField rs2) ||| place 32 15 (regField rs1) ||| place 32 12 f3
    ||| place 32 7 (imm.extractLsb' 0 5) ||| place 32 0 0b0100011#7

/-- B-type. -/
def encB (f3 : BitVec 3) (rs1 rs2 : Reg) (off : BitVec 13) : Word :=
  place 32 31 (off.extractLsb' 12 1) ||| place 32 25 (off.extractLsb' 5 6) ||| place 32 20 (regField rs2)
    ||| place 32 15 (regField rs1) ||| place 32 12 f3 ||| place 32 8 (off.extractLsb' 1 4)
    ||| place 32 7 (off.extractLsb' 11 1) ||| place 32 0 0b1100011#7

/-- U-type. -/
def encU (op : BitVec 7) (rd : Reg) (imm20 : BitVec 20) : Word :=
  place 32 12 imm20 ||| place 32 7 (regField rd) ||| place 32 0 op

/-- J-type. -/
def encJ (rd : Reg) (off : BitVec 21) : Word :=
  place 32 31 (off.extractLsb' 20 1) ||| place 32 21 (off.extractLsb' 1 10) ||| place 32 20 (off.extractLsb' 11 1)
    ||| place 32 12 (off.extractLsb' 12 8) ||| place 32 7 (regField rd) ||| place 32 0 0b1101111#7

/-- CSR forms (R59): the `rs1` position holds a register or an immediate. -/
def encCsr (f3 : BitVec 3) (rd : Reg) (csr : BitVec 12) (src : BitVec 5) : Word :=
  place 32 20 csr ||| place 32 15 src ||| place 32 12 f3 ||| place 32 7 (regField rd) ||| place 32 0 0b1110011#7

/-- FENCE (R67): `fm`, `pred`, `succ` share the immediate field. -/
def encFence (fm pred succ : BitVec 4) (rs1 rd : Reg) : Word :=
  place 32 28 fm ||| place 32 24 pred ||| place 32 20 succ ||| place 32 15 (regField rs1)
    ||| place 32 7 (regField rd) ||| place 32 0 0b0001111#7

/-- The word of an instruction (R61 to R68). -/
def encode : Instr → Word
  | .lui rd imm20 => encU 0b0110111#7 rd imm20
  | .auipc rd imm20 => encU 0b0010111#7 rd imm20
  | .jal rd off => encJ rd off
  | .jalr rd rs1 imm => encI 0b000#3 0b1100111#7 rd rs1 imm
  | .beq rs1 rs2 off => encB 0b000#3 rs1 rs2 off
  | .bne rs1 rs2 off => encB 0b001#3 rs1 rs2 off
  | .blt rs1 rs2 off => encB 0b100#3 rs1 rs2 off
  | .bge rs1 rs2 off => encB 0b101#3 rs1 rs2 off
  | .bltu rs1 rs2 off => encB 0b110#3 rs1 rs2 off
  | .bgeu rs1 rs2 off => encB 0b111#3 rs1 rs2 off
  | .lb rd rs1 imm => encI 0b000#3 0b0000011#7 rd rs1 imm
  | .lh rd rs1 imm => encI 0b001#3 0b0000011#7 rd rs1 imm
  | .lw rd rs1 imm => encI 0b010#3 0b0000011#7 rd rs1 imm
  | .lbu rd rs1 imm => encI 0b100#3 0b0000011#7 rd rs1 imm
  | .lhu rd rs1 imm => encI 0b101#3 0b0000011#7 rd rs1 imm
  | .sb rs1 rs2 imm => encS 0b000#3 rs1 rs2 imm
  | .sh rs1 rs2 imm => encS 0b001#3 rs1 rs2 imm
  | .sw rs1 rs2 imm => encS 0b010#3 rs1 rs2 imm
  | .addi rd rs1 imm => encI 0b000#3 0b0010011#7 rd rs1 imm
  | .slti rd rs1 imm => encI 0b010#3 0b0010011#7 rd rs1 imm
  | .sltiu rd rs1 imm => encI 0b011#3 0b0010011#7 rd rs1 imm
  | .xori rd rs1 imm => encI 0b100#3 0b0010011#7 rd rs1 imm
  | .ori rd rs1 imm => encI 0b110#3 0b0010011#7 rd rs1 imm
  | .andi rd rs1 imm => encI 0b111#3 0b0010011#7 rd rs1 imm
  | .slli rd rs1 shamt => encShift 0b0000000#7 0b001#3 rd rs1 shamt
  | .srli rd rs1 shamt => encShift 0b0000000#7 0b101#3 rd rs1 shamt
  | .srai rd rs1 shamt => encShift 0b0100000#7 0b101#3 rd rs1 shamt
  | .add rd rs1 rs2 => encR 0b0000000#7 0b000#3 0b0110011#7 rd rs1 rs2
  | .sub rd rs1 rs2 => encR 0b0100000#7 0b000#3 0b0110011#7 rd rs1 rs2
  | .sll rd rs1 rs2 => encR 0b0000000#7 0b001#3 0b0110011#7 rd rs1 rs2
  | .slt rd rs1 rs2 => encR 0b0000000#7 0b010#3 0b0110011#7 rd rs1 rs2
  | .sltu rd rs1 rs2 => encR 0b0000000#7 0b011#3 0b0110011#7 rd rs1 rs2
  | .xor rd rs1 rs2 => encR 0b0000000#7 0b100#3 0b0110011#7 rd rs1 rs2
  | .srl rd rs1 rs2 => encR 0b0000000#7 0b101#3 0b0110011#7 rd rs1 rs2
  | .sra rd rs1 rs2 => encR 0b0100000#7 0b101#3 0b0110011#7 rd rs1 rs2
  | .or rd rs1 rs2 => encR 0b0000000#7 0b110#3 0b0110011#7 rd rs1 rs2
  | .and rd rs1 rs2 => encR 0b0000000#7 0b111#3 0b0110011#7 rd rs1 rs2
  | .fence fm pred succ rs1 rd => encFence fm pred succ rs1 rd
  | .ecall => 0x00000073#32
  | .ebreak => 0x00100073#32
  | .csrrw rd csr rs1 => encCsr 0b001#3 rd csr (regField rs1)
  | .csrrs rd csr rs1 => encCsr 0b010#3 rd csr (regField rs1)
  | .csrrc rd csr rs1 => encCsr 0b011#3 rd csr (regField rs1)
  | .csrrwi rd csr uimm => encCsr 0b101#3 rd csr uimm
  | .csrrsi rd csr uimm => encCsr 0b110#3 rd csr uimm
  | .csrrci rd csr uimm => encCsr 0b111#3 rd csr uimm

/-! ## The opcode table as data (spec/opcode_table.json; R60, R62 to R68) -/

/-- One row of the opcode table. -/
structure Row where
  mnemonic : String
  pattern : Word
  mask : Word
deriving DecidableEq, Repr

/-- R68. -/
def upperJumpRows : List Row := [
  ⟨"LUI", 0x00000037#32, 0x0000007F#32⟩,
  ⟨"AUIPC", 0x00000017#32, 0x0000007F#32⟩,
  ⟨"JAL", 0x0000006F#32, 0x0000007F#32⟩,
  ⟨"JALR", 0x00000067#32, 0x0000707F#32⟩
]

/-- R66. -/
def branchRows : List Row := [
  ⟨"BEQ", 0x00000063#32, 0x0000707F#32⟩,
  ⟨"BNE", 0x00001063#32, 0x0000707F#32⟩,
  ⟨"BLT", 0x00004063#32, 0x0000707F#32⟩,
  ⟨"BGE", 0x00005063#32, 0x0000707F#32⟩,
  ⟨"BLTU", 0x00006063#32, 0x0000707F#32⟩,
  ⟨"BGEU", 0x00007063#32, 0x0000707F#32⟩
]

/-- R64, R65. -/
def loadStoreRows : List Row := [
  ⟨"LB", 0x00000003#32, 0x0000707F#32⟩,
  ⟨"LH", 0x00001003#32, 0x0000707F#32⟩,
  ⟨"LW", 0x00002003#32, 0x0000707F#32⟩,
  ⟨"LBU", 0x00004003#32, 0x0000707F#32⟩,
  ⟨"LHU", 0x00005003#32, 0x0000707F#32⟩,
  ⟨"SB", 0x00000023#32, 0x0000707F#32⟩,
  ⟨"SH", 0x00001023#32, 0x0000707F#32⟩,
  ⟨"SW", 0x00002023#32, 0x0000707F#32⟩
]

/-- R63. -/
def opImmRows : List Row := [
  ⟨"ADDI", 0x00000013#32, 0x0000707F#32⟩,
  ⟨"SLTI", 0x00002013#32, 0x0000707F#32⟩,
  ⟨"SLTIU", 0x00003013#32, 0x0000707F#32⟩,
  ⟨"XORI", 0x00004013#32, 0x0000707F#32⟩,
  ⟨"ORI", 0x00006013#32, 0x0000707F#32⟩,
  ⟨"ANDI", 0x00007013#32, 0x0000707F#32⟩,
  ⟨"SLLI", 0x00001013#32, 0xFE00707F#32⟩,
  ⟨"SRLI", 0x00005013#32, 0xFE00707F#32⟩,
  ⟨"SRAI", 0x40005013#32, 0xFE00707F#32⟩
]

/-- R62. -/
def opRows : List Row := [
  ⟨"ADD", 0x00000033#32, 0xFE00707F#32⟩,
  ⟨"SUB", 0x40000033#32, 0xFE00707F#32⟩,
  ⟨"SLL", 0x00001033#32, 0xFE00707F#32⟩,
  ⟨"SLT", 0x00002033#32, 0xFE00707F#32⟩,
  ⟨"SLTU", 0x00003033#32, 0xFE00707F#32⟩,
  ⟨"XOR", 0x00004033#32, 0xFE00707F#32⟩,
  ⟨"SRL", 0x00005033#32, 0xFE00707F#32⟩,
  ⟨"SRA", 0x40005033#32, 0xFE00707F#32⟩,
  ⟨"OR", 0x00006033#32, 0xFE00707F#32⟩,
  ⟨"AND", 0x00007033#32, 0xFE00707F#32⟩
]

/-- R67. -/
def systemRows : List Row := [
  ⟨"ECALL", 0x00000073#32, 0xFFFFFFFF#32⟩,
  ⟨"EBREAK", 0x00100073#32, 0xFFFFFFFF#32⟩,
  ⟨"CSRRW", 0x00001073#32, 0x0000707F#32⟩,
  ⟨"CSRRS", 0x00002073#32, 0x0000707F#32⟩,
  ⟨"CSRRC", 0x00003073#32, 0x0000707F#32⟩,
  ⟨"CSRRWI", 0x00005073#32, 0x0000707F#32⟩,
  ⟨"CSRRSI", 0x00006073#32, 0x0000707F#32⟩,
  ⟨"CSRRCI", 0x00007073#32, 0x0000707F#32⟩
]

/-- R67: the row that exists only under FENCE_MODE = nop. -/
def fenceRows : List Row := [
  ⟨"FENCE", 0x0000000F#32, 0x0000707F#32⟩
]

/-- The rows that stand under a FENCE_MODE (R61, R67). -/
def rowsOf : FenceMode → List Row
  | .illegal => upperJumpRows ++ branchRows ++ loadStoreRows ++ opImmRows ++ opRows ++ systemRows
  | .nop => upperJumpRows ++ branchRows ++ loadStoreRows ++ opImmRows ++ opRows ++ systemRows ++ fenceRows

/-- A word matches a row when `(insn AND mask) = match` (R60). -/
def Row.accepts (r : Row) (w : Word) : Bool := w &&& r.mask = r.pattern

/-- The mnemonic of an instruction, as the opcode table spells it (R73). -/
def Instr.mnemonic : Instr → String
  | .lui _ _ => "LUI"
  | .auipc _ _ => "AUIPC"
  | .jal _ _ => "JAL"
  | .jalr _ _ _ => "JALR"
  | .beq _ _ _ => "BEQ"
  | .bne _ _ _ => "BNE"
  | .blt _ _ _ => "BLT"
  | .bge _ _ _ => "BGE"
  | .bltu _ _ _ => "BLTU"
  | .bgeu _ _ _ => "BGEU"
  | .lb _ _ _ => "LB"
  | .lh _ _ _ => "LH"
  | .lw _ _ _ => "LW"
  | .lbu _ _ _ => "LBU"
  | .lhu _ _ _ => "LHU"
  | .sb _ _ _ => "SB"
  | .sh _ _ _ => "SH"
  | .sw _ _ _ => "SW"
  | .addi _ _ _ => "ADDI"
  | .slti _ _ _ => "SLTI"
  | .sltiu _ _ _ => "SLTIU"
  | .xori _ _ _ => "XORI"
  | .ori _ _ _ => "ORI"
  | .andi _ _ _ => "ANDI"
  | .slli _ _ _ => "SLLI"
  | .srli _ _ _ => "SRLI"
  | .srai _ _ _ => "SRAI"
  | .add _ _ _ => "ADD"
  | .sub _ _ _ => "SUB"
  | .sll _ _ _ => "SLL"
  | .slt _ _ _ => "SLT"
  | .sltu _ _ _ => "SLTU"
  | .xor _ _ _ => "XOR"
  | .srl _ _ _ => "SRL"
  | .sra _ _ _ => "SRA"
  | .or _ _ _ => "OR"
  | .and _ _ _ => "AND"
  | .fence _ _ _ _ _ => "FENCE"
  | .ecall => "ECALL"
  | .ebreak => "EBREAK"
  | .csrrw _ _ _ => "CSRRW"
  | .csrrs _ _ _ => "CSRRS"
  | .csrrc _ _ _ => "CSRRC"
  | .csrrwi _ _ _ => "CSRRWI"
  | .csrrsi _ _ _ => "CSRRSI"
  | .csrrci _ _ _ => "CSRRCI"

end Sys2Proof
end

