-- ==== Sys2Proof/Machine/State.lean ====
section
/-! DEFINITION. The state of the machine as plain data (spec 10_state.md R10 to R25), the reasons a step can stop, and the
state after reset (R24). -/

namespace Sys2Proof.Machine

/-- The five values of `halt_reason` (R16, R185). -/
inductive HaltReason where
  /-- The hart is running. -/
  | none
  /-- "ECALL instruction" (R183). -/
  | ecall
  /-- "EBREAK instruction" (R183). -/
  | ebreak
  /-- "Illegal instruction" (R182). -/
  | illegalInstruction
  /-- "PC alignment error" (R181). -/
  | pcAlignment
deriving DecidableEq, Repr

/-- The byte store (R20) as a list of (address, byte) cells in canonical form, `Memory.wf` in Machine/Memory.lean: addresses
strictly rising and no cell equal to what an unlisted address holds, `memFill` (log entry 18). -/
abbrev Memory := List Host.Cell

/-- The state of the machine. -/
structure State where
  /-- x0 .. x31 (R10); slot 0 is forced to 0 and never written (R12, R201). -/
  regs : Vector Word 32
  /-- The program counter (R14). -/
  pc : Word
  /-- The halted flag (R16). -/
  halted : Bool
  /-- The halt reason (R16). -/
  haltReason : HaltReason
  /-- The instruction counter, unbounded (R17, log entry 9). -/
  insnCount : Nat
  /-- Trace flag (R18). -/
  showInstructions : Bool
  /-- Trace flag (R18). -/
  showRegisters : Bool
  /-- Memory (R20). -/
  mem : Memory
  /-- The diagnostic log, oldest entry first (R21). -/
  diagLog : List Word
  /-- The parameters of the run (R25), which no step changes (log entry 1). -/
  cfg : Config
  /-- The model's own: how many choices of `Config.freeOrder` have been used (log entries 6 and 7). -/
  orderCount : Nat
deriving DecidableEq, Repr

/-- What stops the machine with a fault: nothing. Every exceptional condition of this hardware is a transition to `halted`
(R184), that is a next state, and an out-of-range access is no exception (R187). -/
inductive Fault where
deriving DecidableEq, Repr

/-- Why a step has no meaning. -/
inductive Refusal where
  /-- Raised by an arm of `exec` whose instruction has no meaning yet (safe). No arm raises it now. -/
  | notModelled (mnemonic : String)
deriving DecidableEq, Repr

/-- The state after construction with the default parameters, an empty image and a hart reset (R24, R200 to R202). The two
trace flags are DESIGN CHOICE false (log entry 8), `orderCount` DESIGN CHOICE 0 (log entry 7). -/
def State.reset : State where
  regs := (Vector.replicate 32 regFill).set 0 0#32
  pc := 0#32
  halted := false
  haltReason := .none
  insnCount := 0
  showInstructions := false
  showRegisters := false
  mem := []
  diagLog := []
  cfg := Config.default
  orderCount := 0

end Sys2Proof.Machine
end

