-- ==== Sys2Proof/Machine/Memory.lean ====
section
/-! DEFINITION. The byte store: size, canonical form, reading and writing one byte, and placing the bytes of a wider write
(spec 10_state.md R20, 20_memory.md R30 to R36). -/

namespace Sys2Proof.Machine

/-- `MEM_SIZE`: `MEM_SIZE_CFG` rounded up to a multiple of 16 (R20). -/
def memSize (c : Config) : Nat := (c.memSizeCfg.val + 15) / 16 * 16

/-- The canonical form: addresses strictly rising, no cell holding the fill byte. -/
abbrev Memory.wf (m : Memory) : Prop :=
  List.Pairwise (fun x y : Host.Cell => x.1 < y.1) m ∧ ∀ c ∈ m, c.2 ≠ memFill

/-- Every listed cell lies inside a memory of `size` bytes. -/
abbrev Memory.within (size : Nat) (m : Memory) : Prop := ∀ c ∈ m, c.1 < size

/-- The byte an address inside memory holds; an unlisted one holds the fill byte (R202). -/
def Memory.getByte : Memory → Nat → Byte
  | [], _ => memFill
  | (a, b) :: m, x => if x = a then b else Memory.getByte m x

/-- `m` with the byte at `x` set to `v`, in canonical form: a byte set to the fill byte is not listed. -/
def Memory.setByte : Memory → Nat → Byte → Memory
  | [], x, v => if v = memFill then [] else [(x, v)]
  | (a, b) :: m, x, v =>
    if x < a then (if v = memFill then (a, b) :: m else (x, v) :: (a, b) :: m)
    else if x = a then (if v = memFill then m else (a, v) :: m)
    else (a, b) :: Memory.setByte m x v

/-- A byte address is legal when below `MEM_SIZE` (R31). -/
def legalAddr (size : Nat) (a : Word) : Bool := a.toNat < size

/-- The value `Read8` returns (R32): 0 at an illegal address. -/
def read8 (size : Nat) (m : Memory) (a : Word) : Byte := if legalAddr size a then m.getByte a.toNat else 0#8

/-- The memory `Write8` leaves (R34): a write to an illegal address is dropped. -/
def write8 (size : Nat) (m : Memory) (a : Word) (b : Byte) : Memory :=
  if legalAddr size a then m.setByte a.toNat b else m

/-- The value of `MemRead(a, n)` (R35), as the 32-bit word whose low `8n` bits it is: byte `i`, at `a + i` modulo 2^32, stands
at bits `8i+7 .. 8i`. -/
def readBytes (size : Nat) (m : Memory) (a : Word) : Nat → Word
  | 0 => 0#32
  | n + 1 => readBytes size m a n ||| (read8 size m (a + BitVec.ofNat 32 n)).setWidth 32 <<< (8 * n)

/-- The memory `MemWrite(a, n, v)` leaves (R36): byte `v[8i+7:8i]` goes to `a + i` modulo 2^32. -/
def writeBytes (size : Nat) (a v : Word) : Nat → Memory → Memory
  | 0, m => m
  | n + 1, m => write8 size (writeBytes size a v n m) (a + BitVec.ofNat 32 n) (v.extractLsb' (8 * n) 8)

/-- The byte addresses of an access (R35, R36). -/
def accessAddrs (a : Word) (n : Nat) : List Word := (List.range n).map fun i => a + BitVec.ofNat 32 i

/-- Those of them that are illegal, one warning each (R32, R34). -/
def illegalAddrs (size : Nat) (a : Word) (n : Nat) : List Word :=
  (accessAddrs a n).filter fun x => !legalAddr size x

/-- An order of the warnings of one access. The spec leaves it open (R35, U6), so each address in turn is inserted at a place
chosen by the free value; every order is a possible one (log entry 6). -/
def arrangeWarnings : Nat → List Word → List Word
  | _, [] => []
  | _, [a] => [a]
  | k, a :: b :: as =>
    List.insertIdx (arrangeWarnings (k + 1) (b :: as)) (Config.freeOrder k % (as.length + 2)) a

/-- The bytes of an image placed at `a`, `a + 1`, … (R203). -/
def placeBytes : Nat → List Byte → Memory → Memory
  | _, [], m => m
  | a, b :: bs, m => placeBytes (a + 1) bs (m.setByte a b)

end Sys2Proof.Machine
end

