-- ==== Sys2Proof/Machine/Ops.lean ====
section
/-! DEFINITION. The named operations over the state that every meaning is written with: register read and write, pc, halt (the
hart's whole exception entry) and the host's reset (the only way back), warnings, `MemRead`, `MemWrite` and the fetch. -/

namespace Sys2Proof.Machine

/-! ## Registers (R11, R12) and pc (R15) -/

/-- `x[r]`: 0 for x0, whatever slot 0 holds (R11). -/
def State.readReg (s : State) (r : Reg) : Word := if r = 0 then 0#32 else s.regs[r.val]

/-- `x[r] <- v`: discarded for x0 (R12). -/
def State.writeReg (s : State) (r : Reg) (v : Word) : State :=
  if r = 0 then s else { s with regs := s.regs.set r.val v }

/-- `pc <- t`. -/
def State.setPc (s : State) (t : Word) : State := { s with pc := t }

/-- `pc <- pc + 4`, modulo 2^32 (R15). -/
def State.advance (s : State) : State := s.setPc (s.pc + 4#32)

/-- `pc[1:0] = 0b00` (R40). -/
def pcAligned (pc : Word) : Bool := pc.extractLsb' 0 2 = 0b00#2

/-- Step 2 of the tick: the instruction counter counts every tick begun while running (R17, R180). -/
def State.countTick (s : State) : State := { s with insnCount := s.insnCount + 1 }

/-! ## Halting (R184) and reset (R200) -/

/-- `halt(reason)`: the one exception entry of the hart. It saves nothing and goes nowhere; the pc keeps its value (R184, D8). -/
def State.halt (r : HaltReason) (s : State) : State := { s with halted := true, haltReason := r }

/-- The host's hart reset, the only return from `halted` (R188, R200, R201): pc, halted, reason, counter and registers;
memory, log, trace flags and parameters stay. -/
def State.hartReset (s : State) : State :=
  { s with
    regs := (Vector.replicate 32 regFill).set 0 0#32
    pc := 0#32
    halted := false
    haltReason := .none
    insnCount := 0 }

/-- This spec's code for a halt reason (R16, R185). -/
def HaltReason.code : HaltReason → Nat
  | .none => 0
  | .ecall => 1
  | .ebreak => 2
  | .illegalInstruction => 3
  | .pcAlignment => 4

/-- The document's string for a halt reason (R185). -/
def HaltReason.text : HaltReason → String
  | .none => "none"
  | .ecall => "ECALL instruction"
  | .ebreak => "EBREAK instruction"
  | .illegalInstruction => "Illegal instruction"
  | .pcAlignment => "PC alignment error"

/-! ## Memory access -/

/-- `MEM_SIZE` of this machine. -/
def State.size (s : State) : Nat := memSize s.cfg

/-- What `Read8` returns at a byte address (R32). -/
def State.byteAt (s : State) (a : Word) : Byte := read8 s.size s.mem a

/-- The warnings of one access, in a free order, appended to the diagnostic log (R33, R35, U6). -/
def State.warn (as : List Word) (s : State) : State :=
  { s with diagLog := s.diagLog ++ arrangeWarnings s.orderCount as, orderCount := s.orderCount + as.length }

/-- The value of `MemRead(a, n)` (R35). -/
def State.memValue (s : State) (a : Word) (n : Nat) : Word := readBytes s.size s.mem a n

/-- What `MemRead(a, n)` leaves: one warning for each illegal byte (R32). -/
def State.afterRead (s : State) (a : Word) (n : Nat) : State := s.warn (illegalAddrs s.size a n)

/-- `MemWrite(a, n, v)` (R36): legal bytes stored, illegal ones dropped with one warning each (R34). -/
def State.memWrite (s : State) (a : Word) (n : Nat) (v : Word) : State :=
  { s with mem := writeBytes s.size a v n s.mem }.warn (illegalAddrs s.size a n)

/-! ## Instruction fetch (R38) -/

/-- The word a tick fetches: `MemRead(pc, 4)`. -/
def State.fetchWord (s : State) : Word := s.memValue s.pc 4

/-- The state in which the fetched instruction executes: the tick is counted (R180 step 2) and the fetch has logged its
warnings (R38). -/
def State.afterFetch (s : State) : State := s.countTick.afterRead s.pc 4

/-- What the decoder makes of the fetched word under this machine's FENCE_MODE (R60, R180). -/
def State.fetched (s : State) : Verdict := decode s.cfg.fenceMode s.fetchWord

/-- The FENCE_MODE under which the word `w` is the instruction the opcode table has for it: the machine's own, or `nop` where
only the conditional FENCE row has it (R67, log entry 3). -/
def modeFor (mode : FenceMode) (w : Word) : FenceMode :=
  match decode mode w, decode .nop w with
  | .illegal _, .instr _ => .nop
  | _, _ => mode

/-- An instruction stored where the next tick fetches: little-endian at the pc (R30, R38). -/
def State.storeWordAtPc (s : State) (w : Word) : State :=
  { s with
    mem := writeBytes s.size s.pc w 4 s.mem
    cfg := { s.cfg with fenceMode := modeFor s.cfg.fenceMode w } }

/-! ## The shapes in which an instruction ends -/

/-- `x[rd] <- v; pc <- pc + 4`. -/
def State.writeBack (s : State) (rd : Reg) (v : Word) : State := (s.writeReg rd v).advance

/-- `x[rd] <- pc + 4; pc <- t` (R150, R151). -/
def State.linkJump (s : State) (rd : Reg) (t : Word) : State := (s.writeReg rd (s.pc + 4#32)).setPc t

/-- `pc <- t` if the branch is taken, `pc <- pc + 4` if not (R140). -/
def State.branch (s : State) (taken : Bool) (t : Word) : State := if taken then s.setPc t else s.advance

/-- `MemRead(a, n)` extended by `ext` into `rd` (R120): the read is made, with its warnings, whatever `rd` is (R121). -/
def State.loadTo (s : State) (rd : Reg) (a : Word) (n : Nat) (ext : Word → Word) : State :=
  (s.afterRead a n).writeBack rd (ext (s.memValue a n))

/-- `MemWrite(a, n, v); pc <- pc + 4` (R130). -/
def State.storeFrom (s : State) (a : Word) (n : Nat) (v : Word) : State := (s.memWrite a n v).advance

end Sys2Proof.Machine
end

