-- ==== Sys2Proof/Machine/Operands.lean ====
section
/-! DEFINITION. Operand forms: the extension of immediates and loaded values, effective addresses, targets and shift amounts
(spec 00_scope.md R6, 30_encoding.md R53 to R58, 40_alu_register.md R81, 42_loads.md R120, 43_stores.md R130). -/

namespace Sys2Proof.Machine

/-- `imm_i` and `imm_s` as 32-bit values: sign-extended from bit 11 (R53, R54). -/
def imm12 (imm : BitVec 12) : Word := imm.signExtend 32

/-- `imm_b`: sign-extended from bit 12 (R55). -/
def immBranch (off : BitVec 13) : Word := off.signExtend 32

/-- `imm_j`: sign-extended from bit 20 (R57). -/
def immJump (off : BitVec 21) : Word := off.signExtend 32

/-- `imm_u = insn[31:12] ++ 0x000` (R56). -/
def immUpper (imm20 : BitVec 20) : Word := place 32 12 imm20

/-- `sext_8` of the low byte (R6). -/
def sext8 (v : Word) : Word := (v.setWidth 8).signExtend 32

/-- `sext_16` of the low halfword (R6). -/
def sext16 (v : Word) : Word := (v.setWidth 16).signExtend 32

/-- `zext_8` of the low byte (R6). -/
def zext8 (v : Word) : Word := (v.setWidth 8).setWidth 32

/-- `zext_16` of the low halfword (R6). -/
def zext16 (v : Word) : Word := (v.setWidth 16).setWidth 32

/-- `ea = x[rs1] + imm` modulo 2^32 (R120, R130). -/
def State.effAddr (s : State) (rs1 : Reg) (imm : BitVec 12) : Word := s.readReg rs1 + imm12 imm

/-- `pc + imm_b` modulo 2^32 (R140). -/
def State.branchTarget (s : State) (off : BitVec 13) : Word := s.pc + immBranch off

/-- `pc + imm_j` modulo 2^32 (R150). -/
def State.jumpTarget (s : State) (off : BitVec 21) : Word := s.pc + immJump off

/-- `(x[rs1] + imm_i) AND 0xFFFFFFFE` (R151). -/
def State.jalrTarget (s : State) (rs1 : Reg) (imm : BitVec 12) : Word := s.effAddr rs1 imm &&& 0xFFFFFFFE#32

/-- The amount of a register shift: `b[4:0]` (R81). -/
def shiftAmount (b : Word) : Nat := (b.extractLsb' 0 5).toNat

/-- `a << n`, `a >>u n`, `a >>s n` for `n` up to 31 (R81). -/
def shiftLeft (a : Word) (n : Nat) : Word := a <<< n
def shiftRightLogical (a : Word) (n : Nat) : Word := a >>> n
def shiftRightArith (a : Word) (n : Nat) : Word := a.sshiftRight n

end Sys2Proof.Machine
end

