-- ==== Sys2Proof/Machine/AluImm.lean ====
section
/-! DEFINITION. The register-immediate instructions (spec 41_alu_immediate.md): every immediate is sign-extended, SLTIU's and the logical ones too (R100). -/

namespace Sys2Proof.Machine

/-- ADDI (R101) -/
def execAddi (rd rs1 : Reg) (imm : BitVec 12) (s : State) : Host.Outcome State Fault Refusal :=
  .next (s.writeBack rd (s.readReg rs1 + imm12 imm))

/-- SLTI (R102) -/
def execSlti (rd rs1 : Reg) (imm : BitVec 12) (s : State) : Host.Outcome State Fault Refusal :=
  .next (s.writeBack rd (boolWord (lessSigned (s.readReg rs1) (imm12 imm))))

/-- SLTIU (R103) -/
def execSltiu (rd rs1 : Reg) (imm : BitVec 12) (s : State) : Host.Outcome State Fault Refusal :=
  .next (s.writeBack rd (boolWord (lessUnsigned (s.readReg rs1) (imm12 imm))))

/-- XORI (R104) -/
def execXori (rd rs1 : Reg) (imm : BitVec 12) (s : State) : Host.Outcome State Fault Refusal :=
  .next (s.writeBack rd (s.readReg rs1 ^^^ imm12 imm))

/-- ORI (R105) -/
def execOri (rd rs1 : Reg) (imm : BitVec 12) (s : State) : Host.Outcome State Fault Refusal :=
  .next (s.writeBack rd (s.readReg rs1 ||| imm12 imm))

/-- ANDI (R106) -/
def execAndi (rd rs1 : Reg) (imm : BitVec 12) (s : State) : Host.Outcome State Fault Refusal :=
  .next (s.writeBack rd (s.readReg rs1 &&& imm12 imm))

/-- SLLI (R107) -/
def execSlli (rd rs1 : Reg) (shamt : BitVec 5) (s : State) : Host.Outcome State Fault Refusal :=
  .next (s.writeBack rd (shiftLeft (s.readReg rs1) shamt.toNat))

/-- SRLI (R108) -/
def execSrli (rd rs1 : Reg) (shamt : BitVec 5) (s : State) : Host.Outcome State Fault Refusal :=
  .next (s.writeBack rd (shiftRightLogical (s.readReg rs1) shamt.toNat))

/-- SRAI (R109) -/
def execSrai (rd rs1 : Reg) (shamt : BitVec 5) (s : State) : Host.Outcome State Fault Refusal :=
  .next (s.writeBack rd (shiftRightArith (s.readReg rs1) shamt.toNat))

end Sys2Proof.Machine
end

