-- ==== Sys2Proof/Machine/AluReg.lean ====
section
/-! DEFINITION. The register-register instructions (spec 40_alu_register.md): both sources are read before `rd` is written (R80). -/

namespace Sys2Proof.Machine

/-- ADD (R82) -/
def execAdd (rd rs1 rs2 : Reg) (s : State) : Host.Outcome State Fault Refusal :=
  .next (s.writeBack rd (s.readReg rs1 + s.readReg rs2))

/-- SUB (R83) -/
def execSub (rd rs1 rs2 : Reg) (s : State) : Host.Outcome State Fault Refusal :=
  .next (s.writeBack rd (s.readReg rs1 - s.readReg rs2))

/-- SLL (R84) -/
def execSll (rd rs1 rs2 : Reg) (s : State) : Host.Outcome State Fault Refusal :=
  .next (s.writeBack rd (shiftLeft (s.readReg rs1) (shiftAmount (s.readReg rs2))))

/-- SLT (R85) -/
def execSlt (rd rs1 rs2 : Reg) (s : State) : Host.Outcome State Fault Refusal :=
  .next (s.writeBack rd (boolWord (lessSigned (s.readReg rs1) (s.readReg rs2))))

/-- SLTU (R86) -/
def execSltu (rd rs1 rs2 : Reg) (s : State) : Host.Outcome State Fault Refusal :=
  .next (s.writeBack rd (boolWord (lessUnsigned (s.readReg rs1) (s.readReg rs2))))

/-- XOR (R87) -/
def execXor (rd rs1 rs2 : Reg) (s : State) : Host.Outcome State Fault Refusal :=
  .next (s.writeBack rd (s.readReg rs1 ^^^ s.readReg rs2))

/-- SRL (R88) -/
def execSrl (rd rs1 rs2 : Reg) (s : State) : Host.Outcome State Fault Refusal :=
  .next (s.writeBack rd (shiftRightLogical (s.readReg rs1) (shiftAmount (s.readReg rs2))))

/-- SRA (R89) -/
def execSra (rd rs1 rs2 : Reg) (s : State) : Host.Outcome State Fault Refusal :=
  .next (s.writeBack rd (shiftRightArith (s.readReg rs1) (shiftAmount (s.readReg rs2))))

/-- OR (R90) -/
def execOr (rd rs1 rs2 : Reg) (s : State) : Host.Outcome State Fault Refusal :=
  .next (s.writeBack rd (s.readReg rs1 ||| s.readReg rs2))

/-- AND (R91) -/
def execAnd (rd rs1 rs2 : Reg) (s : State) : Host.Outcome State Fault Refusal :=
  .next (s.writeBack rd (s.readReg rs1 &&& s.readReg rs2))

end Sys2Proof.Machine
end

