-- ==== Sys2Proof/Machine/Branches.lean ====
section
/-! DEFINITION. The conditional branches (spec 44_branches.md): the displacement is added to the address of the branch itself, and a misaligned target is found by the next tick (R140, R141). -/

namespace Sys2Proof.Machine

/-- BEQ (R142) -/
def execBeq (rs1 rs2 : Reg) (off : BitVec 13) (s : State) : Host.Outcome State Fault Refusal :=
  .next (s.branch (decide (s.readReg rs1 = s.readReg rs2)) (s.branchTarget off))

/-- BNE (R143) -/
def execBne (rs1 rs2 : Reg) (off : BitVec 13) (s : State) : Host.Outcome State Fault Refusal :=
  .next (s.branch (decide (s.readReg rs1 ≠ s.readReg rs2)) (s.branchTarget off))

/-- BLT (R144) -/
def execBlt (rs1 rs2 : Reg) (off : BitVec 13) (s : State) : Host.Outcome State Fault Refusal :=
  .next (s.branch (lessSigned (s.readReg rs1) (s.readReg rs2)) (s.branchTarget off))

/-- BGE (R145) -/
def execBge (rs1 rs2 : Reg) (off : BitVec 13) (s : State) : Host.Outcome State Fault Refusal :=
  .next (s.branch (!lessSigned (s.readReg rs1) (s.readReg rs2)) (s.branchTarget off))

/-- BLTU (R146) -/
def execBltu (rs1 rs2 : Reg) (off : BitVec 13) (s : State) : Host.Outcome State Fault Refusal :=
  .next (s.branch (lessUnsigned (s.readReg rs1) (s.readReg rs2)) (s.branchTarget off))

/-- BGEU (R147) -/
def execBgeu (rs1 rs2 : Reg) (off : BitVec 13) (s : State) : Host.Outcome State Fault Refusal :=
  .next (s.branch (!lessUnsigned (s.readReg rs1) (s.readReg rs2)) (s.branchTarget off))

end Sys2Proof.Machine
end

