-- ==== Sys2Proof/Machine/Jumps.lean ====
section
/-! DEFINITION. The unconditional jumps (spec 45_jumps.md): the target comes from the old registers, and a misaligned target is found by the next tick (R150 to R152). -/

namespace Sys2Proof.Machine

/-- JAL (R150) -/
def execJal (rd : Reg) (off : BitVec 21) (s : State) : Host.Outcome State Fault Refusal :=
  .next (s.linkJump rd (s.jumpTarget off))

/-- JALR (R151): bit 0 of the sum is cleared, bit 1 is kept -/
def execJalr (rd rs1 : Reg) (imm : BitVec 12) (s : State) : Host.Outcome State Fault Refusal :=
  .next (s.linkJump rd (s.jalrTarget rs1 imm))

end Sys2Proof.Machine
end

