-- ==== Sys2Proof/Machine/Loads.lean ====
section
/-! DEFINITION. The loads (spec 42_loads.md R120 to R127): no alignment rule, no halt, memory only read. -/

namespace Sys2Proof.Machine

/-- LB (R122) -/
def execLb (rd rs1 : Reg) (imm : BitVec 12) (s : State) : Host.Outcome State Fault Refusal :=
  .next (s.loadTo rd (s.effAddr rs1 imm) 1 sext8)

/-- LH (R123) -/
def execLh (rd rs1 : Reg) (imm : BitVec 12) (s : State) : Host.Outcome State Fault Refusal :=
  .next (s.loadTo rd (s.effAddr rs1 imm) 2 sext16)

/-- LW (R124) -/
def execLw (rd rs1 : Reg) (imm : BitVec 12) (s : State) : Host.Outcome State Fault Refusal :=
  .next (s.loadTo rd (s.effAddr rs1 imm) 4 id)

/-- LBU (R125) -/
def execLbu (rd rs1 : Reg) (imm : BitVec 12) (s : State) : Host.Outcome State Fault Refusal :=
  .next (s.loadTo rd (s.effAddr rs1 imm) 1 zext8)

/-- LHU (R126) -/
def execLhu (rd rs1 : Reg) (imm : BitVec 12) (s : State) : Host.Outcome State Fault Refusal :=
  .next (s.loadTo rd (s.effAddr rs1 imm) 2 zext16)

end Sys2Proof.Machine
end

