-- ==== Sys2Proof/Machine/Stores.lean ====
section
/-! DEFINITION. The stores (spec 43_stores.md R130 to R134): no alignment rule, no halt, memory only written. -/

namespace Sys2Proof.Machine

/-- SB (R132) -/
def execSb (rs1 rs2 : Reg) (imm : BitVec 12) (s : State) : Host.Outcome State Fault Refusal :=
  .next (s.storeFrom (s.effAddr rs1 imm) 1 (s.readReg rs2))

/-- SH (R133) -/
def execSh (rs1 rs2 : Reg) (imm : BitVec 12) (s : State) : Host.Outcome State Fault Refusal :=
  .next (s.storeFrom (s.effAddr rs1 imm) 2 (s.readReg rs2))

/-- SW (R134) -/
def execSw (rs1 rs2 : Reg) (imm : BitVec 12) (s : State) : Host.Outcome State Fault Refusal :=
  .next (s.storeFrom (s.effAddr rs1 imm) 4 (s.readReg rs2))

end Sys2Proof.Machine
end

