-- ==== Sys2Proof/Machine/System.lean ====
section
/-! DEFINITION. ECALL, EBREAK, FENCE and the CSR stubs (spec 47_system.md). A CSR stub advances the pc and does nothing else (R164). -/

namespace Sys2Proof.Machine

/-- ECALL (R160) -/
def execEcall (s : State) : Host.Outcome State Fault Refusal :=
  .next (s.halt .ecall)

/-- EBREAK (R161) -/
def execEbreak (s : State) : Host.Outcome State Fault Refusal :=
  .next (s.halt .ebreak)

/-- FENCE (R163), its rule for both values of FENCE_MODE. Under `illegal` the decoder already rejects the word, so a step never comes
here; the rule's own effect for that mode is the same halt. -/
def execFence (_fm _pred _succ : BitVec 4) (_rs1 _rd : Reg) (s : State) : Host.Outcome State Fault Refusal :=
  match s.cfg.fenceMode with
  | .illegal => .next (s.halt .illegalInstruction)
  | .nop => .next s.advance

/-- CSRRW stub (R165, R164, log entry 4) -/
def execCsrrw (_rd : Reg) (_csr : BitVec 12) (_rs1 : Reg) (s : State) : Host.Outcome State Fault Refusal :=
  .next s.advance

/-- CSRRS stub (R166, R164, log entry 4) -/
def execCsrrs (_rd : Reg) (_csr : BitVec 12) (_rs1 : Reg) (s : State) : Host.Outcome State Fault Refusal :=
  .next s.advance

/-- CSRRC stub (R167, R164, log entry 4) -/
def execCsrrc (_rd : Reg) (_csr : BitVec 12) (_rs1 : Reg) (s : State) : Host.Outcome State Fault Refusal :=
  .next s.advance

/-- CSRRWI stub (R168, R164, log entry 4) -/
def execCsrrwi (_rd : Reg) (_csr : BitVec 12) (_uimm : BitVec 5) (s : State) : Host.Outcome State Fault Refusal :=
  .next s.advance

/-- CSRRSI stub (R169, R164, log entry 4) -/
def execCsrrsi (_rd : Reg) (_csr : BitVec 12) (_uimm : BitVec 5) (s : State) : Host.Outcome State Fault Refusal :=
  .next s.advance

/-- CSRRCI stub (R170, R164, log entry 4) -/
def execCsrrci (_rd : Reg) (_csr : BitVec 12) (_uimm : BitVec 5) (s : State) : Host.Outcome State Fault Refusal :=
  .next s.advance

end Sys2Proof.Machine
end

