-- ==== Sys2Proof/Machine/UpperImm.lean ====
section
/-! DEFINITION. The upper-immediate instructions (spec 46_upper_immediate.md). -/

namespace Sys2Proof.Machine

/-- LUI (R156) -/
def execLui (rd : Reg) (imm20 : BitVec 20) (s : State) : Host.Outcome State Fault Refusal :=
  .next (s.writeBack rd (immUpper imm20))

/-- AUIPC (R157): `pc` is the address of the AUIPC itself -/
def execAuipc (rd : Reg) (imm20 : BitVec 20) (s : State) : Host.Outcome State Fault Refusal :=
  .next (s.writeBack rd (s.pc + immUpper imm20))

end Sys2Proof.Machine
end

