-- ==== Sys2Proof/Machine/Step.lean ====
section
/-! DEFINITION. One step of the machine: one tick of the hart (spec 60_exceptions.md R180, R186). -/

namespace Sys2Proof.Machine

/-- The tick (R180): the halted check, then the count, the alignment check, the fetch, the decode and the execution. The two
printing steps of R180 change no state (R18). -/
def step (s : State) : Host.Outcome State Fault Refusal :=
  if s.halted then .next s
  else if pcAligned s.pc then
    match s.fetched with
    | .instr i => exec i s.afterFetch
    | .illegal _ => .next (s.afterFetch.halt .illegalInstruction)
  else .next (s.countTick.halt .pcAlignment)

/-- `s` with the instruction word `w` (its first `nbits` bits, the rest 0) stored at the pc: what the host's image load
does for the instruction the next tick fetches. A FENCE word also needs the parameter value under which the table has its row;
no other word changes a parameter (log entries 3 and 16). -/
def State.withFetchWord (s : State) (nbits w : Nat) : State := s.storeWordAtPc (BitVec.ofNat 32 (w % 2 ^ nbits))

end Sys2Proof.Machine
end

