-- ==== Sys2Proof/Machine/Run.lean ====
section
/-! DEFINITION. What the host does around the ticks (spec 10_state.md R23): construction, image load, trace flags, and the run
loop with its instruction limit (spec 70_reset_and_hazards.md R202 to R206). The hart reset is `State.hartReset` in Ops. -/

namespace Sys2Proof.Machine

/-- construct(`MEM_SIZE_CFG`): a fresh memory full of fill bytes, an empty log, a fresh hart (R201, R202). -/
def State.construct (c : Config) : State := { State.reset with cfg := c }

/-- load(`IMAGE`): the image's bytes at addresses 0, 1, …; none when it does not fit, and then there is no run (R203, U9). -/
def State.loadImage (image : List Byte) (s : State) : Option State :=
  if image.length ≤ s.size then some { s with mem := placeBytes 0 image s.mem } else none

/-- The host sets the trace flags (R18). -/
def State.setTrace (instructions registers : Bool) (s : State) : State :=
  { s with showInstructions := instructions, showRegisters := registers }

/-- The condition of the run loop: `not halted and (LIMIT = 0 or insn_count < LIMIT)` (R205). -/
def runContinues (limit : Nat) (s : State) : Bool := !s.halted && (limit == 0 || decide (s.insnCount < limit))

/-- `run(LIMIT)` (R205), at most `fuel` ticks of it. -/
def runLoop (limit : Nat) : Nat → State → Host.Outcome State Fault Refusal
  | 0, s => .next s
  | fuel + 1, s =>
    if runContinues limit s then
      match step s with
      | .next t => runLoop limit fuel t
      | .fault r => .fault r
      | .refused r => .refused r
    else .next s

/-- The end of a run (R206): halted, or the limit reached. -/
def endOfRun (limit : Nat) (s : State) : Bool := s.halted || (limit != 0 && s.insnCount == limit)

end Sys2Proof.Machine
end

