-- ==== Sys2Proof/Safety.lean ====
section
/-! DEFINITION. The terms claims are made in: frames, the invariant of the machine, what a program can see, and the states a run
can reach (spec 10_state.md, 20_memory.md, 60_exceptions.md, 70_reset_and_hazards.md). -/

namespace Sys2Proof.Machine

/-! ## Frames: what a change from `s` to `t` leaves alone -/

/-- The registers of `t` are those of `s` with `v` in `rd`; x0 reads 0 whatever `rd` is (R11, R12). -/
def RegWritten (rd : Reg) (v : Word) (s t : State) : Prop :=
  ∀ r, t.readReg r = if r = 0 then 0#32 else if r = rd then v else s.readReg r

/-- No register changes. -/
def RegsKept (s t : State) : Prop := ∀ r, t.readReg r = s.readReg r

/-- No byte of memory changes. -/
def MemKept (s t : State) : Prop := ∀ a, t.byteAt a = s.byteAt a

/-- No warning is logged. -/
def LogKept (s t : State) : Prop := t.diagLog = s.diagLog

/-- The parameters and the trace flags do not change (R18, R25). -/
def SetupKept (s t : State) : Prop :=
  t.cfg = s.cfg ∧ t.showInstructions = s.showInstructions ∧ t.showRegisters = s.showRegisters

/-- The halted flag, its reason and the instruction counter do not change, nor do the parameters and trace flags. -/
def ControlKept (s t : State) : Prop :=
  t.halted = s.halted ∧ t.haltReason = s.haltReason ∧ t.insnCount = s.insnCount ∧ SetupKept s t

/-- One access of `n` bytes at `a` has logged one warning for each of its illegal bytes, in some order (R32 to R36, U6). -/
def AccessLogged (a : Word) (n : Nat) (s t : State) : Prop :=
  ∃ ws, t.diagLog = s.diagLog ++ ws ∧ ws.Perm (illegalAddrs s.size a n)

/-- The bytes of `t` are those of `s` with the low `n` bytes of `v` at `a`, `a + 1`, …: a byte at an illegal address is
dropped and so still reads 0 (R34, R36). -/
def BytesStored (a : Word) (n : Nat) (v : Word) (s t : State) : Prop :=
  (∀ i, i < n → t.byteAt (a + BitVec.ofNat 32 i) =
    if legalAddr s.size (a + BitVec.ofNat 32 i) then v.extractLsb' (8 * i) 8 else 0#8) ∧
  (∀ x, (∀ i, i < n → x ≠ a + BitVec.ofNat 32 i) → t.byteAt x = s.byteAt x)

/-- `t` is `s` halted with `r`: nothing else changes (R184). -/
def HaltedWith (r : HaltReason) (s t : State) : Prop :=
  t.halted = true ∧ t.haltReason = r ∧ t.pc = s.pc ∧ RegsKept s t ∧ MemKept s t ∧ SetupKept s t

/-! ## The invariant -/

/-- What holds in every state of a run. -/
structure MachineInv (s : State) : Prop where
  /-- Memory is in canonical form (log entry 18). -/
  canonical : s.mem.wf
  /-- No byte is held outside memory (R20). -/
  inside : s.mem.within s.size
  /-- x0's slot holds 0 (R12, R201). -/
  zeroSlot : s.regs[0] = 0#32
  /-- `halt_reason` is `none` exactly when the hart runs (R16). -/
  reason : s.halted = false ↔ s.haltReason = .none
  /-- The pc is even: displacements are even and JALR clears bit 0 (R55, R57, R151). -/
  pcEven : s.pc.getLsbD 0 = false
  /-- A hart halts with "PC alignment error" exactly when its pc is misaligned (R181, R182, R183). -/
  alignment : s.halted = true → (s.haltReason = .pcAlignment ↔ pcAligned s.pc = false)
  /-- Only illegal addresses are in the diagnostic log (R21, R33). -/
  logged : ∀ a ∈ s.diagLog, legalAddr s.size a = false

/-! ## What a program can observe -/

/-- `s` and `t` look the same to a program and end its run the same way: registers, pc, memory bytes, halted flag and reason,
and the parameters. The instruction counter, the log, the trace flags and the order counter are left out (R17, R18, R21). -/
structure SameToProgram (s t : State) : Prop where
  regs : ∀ r, s.readReg r = t.readReg r
  pc : s.pc = t.pc
  bytes : ∀ a, s.byteAt a = t.byteAt a
  halted : s.halted = t.halted
  reason : s.haltReason = t.haltReason
  cfg : s.cfg = t.cfg

/-! ## Runs -/

/-- The states ticks lead to from `s` (R206). -/
inductive Reachable (s : State) : State → Prop where
  | start : Reachable s s
  | tick {t u : State} : Reachable s t → step t = .next u → Reachable s u

/-- A state from which the host may start a run: any parameters and trace flags, an image that fits, a hart reset (R204). -/
def RunStart (s : State) : Prop :=
  ∃ c image i r m, State.loadImage image ((State.construct c).setTrace i r) = some m ∧ s = m.hartReset

/-- The program ended its run itself, by ECALL or EBREAK (R183, R206). -/
def endedByProgram (s : State) : Bool := s.halted && (s.haltReason == .ecall || s.haltReason == .ebreak)

end Sys2Proof.Machine
end

