-- ==== Sys2Proof/Certificates/Slice0/Obligations.lean ====
section
/-! DEFINITION. The statements for the provers, from the numbered rules of spec/. -/

open Sys2Proof Sys2Proof.Machine

/-! ## Encoding -/

/-- Decode of encode is the instruction, every operand at every value (R52 to R59, R61 to R68). FENCE under the mode that has it
(decision D4, log entry 3); the formats are the spec's general-knowledge passages GK1 to GK8 (log entry 13). -/
def Obligations.DecodeOfEncodeIsTheInstruction : Prop :=
  ∀ mode i, i.wellFormed = true → (mode = .nop ∨ i.mnemonic ≠ "FENCE") → decode mode (encode i) = .instr i

/-- A word that decodes gives a well-formed instruction whose encoding is that very word. That no bit of a FENCE or
CSR word is dropped is the model's choice to keep operand fields the instruction does not use (log entry 20; R67 and R163 say the
fields of FENCE are ignored); the formats are the spec's general-knowledge passages (log entry 13). -/
def Obligations.EncodeOfDecodeIsTheWord : Prop :=
  ∀ mode w i, decode mode w = .instr i → i.wellFormed = true ∧ encode i = w

/-- Decoding is total (R60); a word decodes exactly when it matches a row, and then to that row's instruction; no word matches two
rows; and the executor halts on exactly the words that match none. That the table has 45 rows where FENCE_MODE leaves FENCE out
(R61, R67, R182) is the spec's decision D4 (log entry 3). -/
def Obligations.DecoderAcceptsExactlyTheTable : Prop :=
  (rowsOf .nop).length = 46 ∧ (rowsOf .illegal).length = 45 ∧
  (∀ mode w,
    (∀ i, decode mode w = .instr i → ∃ r ∈ rowsOf mode, r.accepts w = true ∧ r.mnemonic = i.mnemonic) ∧
    (∀ r ∈ rowsOf mode, r.accepts w = true → ∃ i, decode mode w = .instr i ∧ r.mnemonic = i.mnemonic) ∧
    (∀ r ∈ rowsOf mode, ∀ r' ∈ rowsOf mode, r.accepts w = true → r'.accepts w = true → r = r')) ∧
  (∀ s, s.halted = false → pcAligned s.pc = true →
    ((∃ t, step s = .next t ∧ t.halted = true ∧ t.haltReason = .illegalInstruction) ↔
      ∀ r ∈ rowsOf s.cfg.fenceMode, r.accepts (s.memValue s.pc 4) = false))

/-- R53 to R57: every bit of the five immediates, and their ranges. The positions are the spec's general-knowledge passage GK2
(log entry 13). -/
def Obligations.ImmediatesFollowTheFormats : Prop :=
  ∀ w : Word,
    (∀ k, k < 32 → (imm12 (immIOf w)).getLsbD k = if k < 11 then w.getLsbD (k + 20) else w.getLsbD 31) ∧
    (∀ k, k < 32 → (imm12 (immSOf w)).getLsbD k =
      if k < 5 then w.getLsbD (k + 7) else if k < 11 then w.getLsbD (k + 20) else w.getLsbD 31) ∧
    (∀ k, k < 32 → (immBranch (immBOf w)).getLsbD k =
      if k = 0 then false else if k < 5 then w.getLsbD (k + 7) else if k < 11 then w.getLsbD (k + 20)
      else if k = 11 then w.getLsbD 7 else w.getLsbD 31) ∧
    (∀ k, k < 32 → (immUpper (immUOf w)).getLsbD k = if k < 12 then false else w.getLsbD k) ∧
    (∀ k, k < 32 → (immJump (immJOf w)).getLsbD k =
      if k = 0 then false else if k < 11 then w.getLsbD (k + 20) else if k = 11 then w.getLsbD 20
      else if k < 20 then w.getLsbD k else w.getLsbD 31) ∧
    immUpper (immUOf w) = w &&& 0xFFFFF000#32 ∧
    (-2048 ≤ (imm12 (immIOf w)).toInt ∧ (imm12 (immIOf w)).toInt ≤ 2047) ∧
    (-2048 ≤ (imm12 (immSOf w)).toInt ∧ (imm12 (immSOf w)).toInt ≤ 2047) ∧
    (-4096 ≤ (immBranch (immBOf w)).toInt ∧ (immBranch (immBOf w)).toInt ≤ 4094) ∧
    (-1048576 ≤ (immJump (immJOf w)).toInt ∧ (immJump (immJOf w)).toInt ≤ 1048574)

/-- Words written out from the formats, one or more of each family (spec 95_test_vectors.md V-0 and V-A to V-G). -/
def Obligations.SampleWordsDecode : Prop :=
  decode .illegal 0x002081B3#32 = .instr (.add 3 1 2) ∧
  decode .illegal 0x402081B3#32 = .instr (.sub 3 1 2) ∧
  decode .illegal 0x80000093#32 = .instr (.addi 1 0 0x800#12) ∧
  decode .illegal 0x40415093#32 = .instr (.srai 1 2 4#5) ∧
  decode .illegal 0xFFC0A283#32 = .instr (.lw 5 1 0xFFC#12) ∧
  decode .illegal 0xFE20AE23#32 = .instr (.sw 1 2 0xFFC#12) ∧
  decode .illegal 0xFE209CE3#32 = .instr (.bne 1 2 0x1FF8#13) ∧
  decode .illegal 0xFF1FF06F#32 = .instr (.jal 0 0x1FFFF0#21) ∧
  decode .illegal 0xFFC080E7#32 = .instr (.jalr 1 1 0xFFC#12) ∧
  decode .illegal 0xDEADC2B7#32 = .instr (.lui 5 0xDEADC#20) ∧
  decode .nop 0x8330000F#32 = .instr (.fence 8#4 3#4 3#4 0 0) ∧
  decode .illegal 0x00100073#32 = .instr .ebreak ∧
  decode .illegal 0x340312F3#32 = .instr (.csrrw 5 0x340#12 6)

/-- Words the spec names as illegal, under either FENCE_MODE (R69, R92, R110, R128, R135, R148, R162, R163). The strict reading of
SYSTEM and JALR words is decisions D6 and D7 (log entry 14). -/
def Obligations.NamedIllegalWordsAreRejected : Prop :=
  ∀ mode : FenceMode, ∀ w ∈ [0x00000000#32, 0xFFFFFFFF#32, 0xA5A5A5A5#32, 0x022081B3#32, 0x402091B3#32, 0x02411093#32,
      0x40411093#32, 0x20415093#32, 0x0000B283#32, 0x0020B023#32, 0x0020A463#32, 0x000290E7#32, 0x000000F3#32,
      0x00200073#32, 0x30200073#32, 0x10500073#32, 0x00004073#32, 0x0000100F#32],
    (decode mode w).instr? = none

/-- FENCE_MODE decides MISC-MEM words and no others: under `illegal` all of them are illegal, under `nop` those with funct3 000
are FENCE whatever their other bits (R61, R67). The parameter is decision D4 (log entry 3). -/
def Obligations.FenceModeDecidesMiscMemOnly : Prop :=
  ∀ w : Word,
    (opcodeOf w ≠ 0b0001111#7 → decode .illegal w = decode .nop w) ∧
    (opcodeOf w = 0b0001111#7 → (decode .illegal w).instr? = none) ∧
    (opcodeOf w = 0b0001111#7 → funct3Of w ≠ 0b000#3 → (decode .nop w).instr? = none) ∧
    (opcodeOf w = 0b0001111#7 → funct3Of w = 0b000#3 →
      ∃ fm pred succ rs1 rd, decode .nop w = .instr (.fence fm pred succ rs1 rd))

/-! ## Instructions. Each rule below has the row's words (pattern and mask, and where the operands stand in the word) and the
effect: exec answers a next state, what it holds, and its frame. -/

/-- A register-register instruction with row `pattern` whose result `v` is fixed by `result a b v` (R80). -/
def Sys2Proof.Machine.RegisterRule (pattern : Word) (mk : Reg → Reg → Reg → Instr) (result : Word → Word → Word → Prop) : Prop :=
  (∀ mode w, w &&& 0xFE00707F#32 = pattern → decode mode w = .instr (mk (rdOf w) (rs1Of w) (rs2Of w))) ∧
  ∀ rd rs1 rs2 s, ∃ v t, exec (mk rd rs1 rs2) s = .next t ∧ result (s.readReg rs1) (s.readReg rs2) v ∧
    RegWritten rd v s t ∧ t.pc = s.pc + 4#32 ∧ MemKept s t ∧ LogKept s t ∧ ControlKept s t

/-- ADD, SUB, SLT, SLTU (R82, R83, R85, R86), in the shape of R80. -/
def Obligations.RegisterArithmetic : Prop :=
  RegisterRule 0x00000033#32 .add (fun a b v => v.toNat = (a.toNat + b.toNat) % 2 ^ 32) ∧
  RegisterRule 0x40000033#32 .sub (fun a b v => (v.toNat : Int) = ((a.toNat : Int) - b.toNat) % 2 ^ 32) ∧
  RegisterRule 0x00002033#32 .slt (fun a b v => v.toNat = if a.toInt < b.toInt then 1 else 0) ∧
  RegisterRule 0x00003033#32 .sltu (fun a b v => v.toNat = if a.toNat < b.toNat then 1 else 0)

/-- SLL, SRL, SRA: the amount is the low five bits of the second operand (R81, R84, R88, R89). What the shifts compute is the spec's
decision D15 with GK6 (log entry 13). -/
def Obligations.RegisterShifts : Prop :=
  RegisterRule 0x00001033#32 .sll (fun a b v => v.toNat = a.toNat * 2 ^ (b.toNat % 32) % 2 ^ 32) ∧
  RegisterRule 0x00005033#32 .srl (fun a b v => v.toNat = a.toNat / 2 ^ (b.toNat % 32)) ∧
  RegisterRule 0x40005033#32 .sra (fun a b v => v.toInt = Int.fdiv a.toInt (2 ^ (b.toNat % 32)))

/-- XOR, OR, AND, bit by bit (R87, R90, R91). -/
def Obligations.RegisterLogic : Prop :=
  RegisterRule 0x00004033#32 .xor (fun a b v => ∀ k, v.getLsbD k = (a.getLsbD k ^^ b.getLsbD k)) ∧
  RegisterRule 0x00006033#32 .or (fun a b v => ∀ k, v.getLsbD k = (a.getLsbD k || b.getLsbD k)) ∧
  RegisterRule 0x00007033#32 .and (fun a b v => ∀ k, v.getLsbD k = (a.getLsbD k && b.getLsbD k))

/-- A register-immediate instruction (R100). -/
def Sys2Proof.Machine.ImmediateRule (pattern : Word) (mk : Reg → Reg → BitVec 12 → Instr) (result : Word → BitVec 12 → Word → Prop) : Prop :=
  (∀ mode w, w &&& 0x0000707F#32 = pattern → decode mode w = .instr (mk (rdOf w) (rs1Of w) (immIOf w))) ∧
  ∀ rd rs1 imm s, ∃ v t, exec (mk rd rs1 imm) s = .next t ∧ result (s.readReg rs1) imm v ∧
    RegWritten rd v s t ∧ t.pc = s.pc + 4#32 ∧ MemKept s t ∧ LogKept s t ∧ ControlKept s t

/-- ADDI, SLTI, SLTIU: the immediate is sign-extended, SLTIU's too and then read unsigned (R101 to R103). -/
def Obligations.ImmediateArithmetic : Prop :=
  ImmediateRule 0x00000013#32 .addi (fun a imm v => (v.toNat : Int) = (a.toNat + imm.toInt) % 2 ^ 32) ∧
  ImmediateRule 0x00002013#32 .slti (fun a imm v => v.toNat = if a.toInt < imm.toInt then 1 else 0) ∧
  ImmediateRule 0x00003013#32 .sltiu (fun a imm v => v.toNat = if (a.toNat : Int) < imm.toInt % 2 ^ 32 then 1 else 0)

/-- XORI, ORI, ANDI: bits 31 to 11 of the immediate are its sign bit (R104 to R106). -/
def Obligations.ImmediateLogic : Prop :=
  ImmediateRule 0x00004013#32 .xori
    (fun a imm v => ∀ k, k < 32 → v.getLsbD k = (a.getLsbD k ^^ imm.getLsbD (min k 11))) ∧
  ImmediateRule 0x00006013#32 .ori
    (fun a imm v => ∀ k, k < 32 → v.getLsbD k = (a.getLsbD k || imm.getLsbD (min k 11))) ∧
  ImmediateRule 0x00007013#32 .andi
    (fun a imm v => ∀ k, k < 32 → v.getLsbD k = (a.getLsbD k && imm.getLsbD (min k 11)))

/-- An immediate shift (R100, R58). -/
def Sys2Proof.Machine.ShiftRule (pattern : Word) (mk : Reg → Reg → BitVec 5 → Instr) (result : Word → Nat → Word → Prop) : Prop :=
  (∀ mode w, w &&& 0xFE00707F#32 = pattern → decode mode w = .instr (mk (rdOf w) (rs1Of w) (shamtOf w))) ∧
  ∀ rd rs1 shamt s, ∃ v t, exec (mk rd rs1 shamt) s = .next t ∧ result (s.readReg rs1) shamt.toNat v ∧
    RegWritten rd v s t ∧ t.pc = s.pc + 4#32 ∧ MemKept s t ∧ LogKept s t ∧ ControlKept s t

/-- SLLI, SRLI, SRAI (R107 to R109). What the shifts compute is R81's decision D15 with GK6 (log entry 13). -/
def Obligations.ImmediateShifts : Prop :=
  ShiftRule 0x00001013#32 .slli (fun a n v => v.toNat = a.toNat * 2 ^ n % 2 ^ 32) ∧
  ShiftRule 0x00005013#32 .srli (fun a n v => v.toNat = a.toNat / 2 ^ n) ∧
  ShiftRule 0x40005013#32 .srai (fun a n v => v.toInt = Int.fdiv a.toInt (2 ^ n))

/-- An upper-immediate instruction. -/
def Sys2Proof.Machine.UpperRule (pattern : Word) (mk : Reg → BitVec 20 → Instr) (result : Word → BitVec 20 → Word → Prop) : Prop :=
  (∀ mode w, w &&& 0x0000007F#32 = pattern → decode mode w = .instr (mk (rdOf w) (immUOf w))) ∧
  ∀ rd imm20 s, ∃ v t, exec (mk rd imm20) s = .next t ∧ result s.pc imm20 v ∧
    RegWritten rd v s t ∧ t.pc = s.pc + 4#32 ∧ MemKept s t ∧ LogKept s t ∧ ControlKept s t

/-- LUI (R156). -/
def Obligations.LoadUpperImmediate : Prop :=
  UpperRule 0x00000037#32 .lui (fun _ imm20 v => v.toNat = imm20.toNat * 4096) ∧
  ∀ w, immUpper (immUOf w) = w &&& 0xFFFFF000#32

/-- AUIPC (R157). That the sum wraps is the spec's decision D9 (log entry 10). -/
def Obligations.AddUpperImmediateToPc : Prop :=
  UpperRule 0x00000017#32 .auipc (fun pc imm20 v => v.toNat = (pc.toNat + imm20.toNat * 4096) % 2 ^ 32)

/-- A load of `n` bytes (R120, R121, R127): the effective address, the value by the bytes read, the warnings, and that no byte of
memory changes. A byte at an illegal address reads 0. That addresses wrap is decision D9 (log entry 10), that no alignment is asked D10
(log entry 11), that the warnings stand in a log D12, that a load to x0 still reads D23 (log entry 22); their order is open (log entry 6). -/
def Sys2Proof.Machine.LoadRule (pattern : Word) (n : Nat) (mk : Reg → Reg → BitVec 12 → Instr) (result : (Nat → Byte) → Word → Prop) : Prop :=
  (∀ mode w, w &&& 0x0000707F#32 = pattern → decode mode w = .instr (mk (rdOf w) (rs1Of w) (immIOf w))) ∧
  ∀ rd rs1 imm s, ∃ v t, exec (mk rd rs1 imm) s = .next t ∧
    ((s.effAddr rs1 imm).toNat : Int) = ((s.readReg rs1).toNat + imm.toInt) % 2 ^ 32 ∧
    result (fun i => s.byteAt (s.effAddr rs1 imm + BitVec.ofNat 32 i)) v ∧
    RegWritten rd v s t ∧ t.pc = s.pc + 4#32 ∧ MemKept s t ∧ AccessLogged (s.effAddr rs1 imm) n s t ∧ ControlKept s t

/-- LB and LBU (R122, R125), in the shape of `LoadRule`. -/
def Obligations.ByteLoads : Prop :=
  LoadRule 0x00000003#32 1 .lb (fun b v => v.toInt = (b 0).toInt) ∧
  LoadRule 0x00004003#32 1 .lbu (fun b v => v.toNat = (b 0).toNat)

/-- LH and LHU (R123, R126), in the shape of `LoadRule`. -/
def Obligations.HalfwordLoads : Prop :=
  LoadRule 0x00001003#32 2 .lh (fun b v => v.toInt = (b 1).toInt * 256 + (b 0).toNat) ∧
  LoadRule 0x00005003#32 2 .lhu (fun b v => v.toNat = (b 1).toNat * 256 + (b 0).toNat)

/-- LW (R124), in the shape of `LoadRule`. -/
def Obligations.WordLoad : Prop :=
  LoadRule 0x00002003#32 4 .lw (fun b v => v.toNat =
    (b 3).toNat * 2 ^ 24 + (b 2).toNat * 2 ^ 16 + (b 1).toNat * 2 ^ 8 + (b 0).toNat)

/-- A store of `n` bytes (R130, R131): the address stored to is the one the meaning computes, in states whose memory is in
canonical form (an invariant, `Obligations.EveryStepKeepsTheInvariant`). Wrap, alignment and the log are decisions D9, D10 and D12
(log entries 10, 11, 6). -/
def Sys2Proof.Machine.StoreRule (pattern : Word) (n : Nat) (mk : Reg → Reg → BitVec 12 → Instr) : Prop :=
  (∀ mode w, w &&& 0x0000707F#32 = pattern → decode mode w = .instr (mk (rs1Of w) (rs2Of w) (immSOf w))) ∧
  ∀ rs1 rs2 imm s, s.mem.wf → ∃ t, exec (mk rs1 rs2 imm) s = .next t ∧
    ((s.effAddr rs1 imm).toNat : Int) = ((s.readReg rs1).toNat + imm.toInt) % 2 ^ 32 ∧
    BytesStored (s.effAddr rs1 imm) n (s.readReg rs2) s t ∧
    RegsKept s t ∧ t.pc = s.pc + 4#32 ∧ AccessLogged (s.effAddr rs1 imm) n s t ∧ ControlKept s t

/-- SB, SH, SW (R132 to R134), in the shape of `StoreRule`. -/
def Obligations.Stores : Prop :=
  StoreRule 0x00000023#32 1 .sb ∧ StoreRule 0x00001023#32 2 .sh ∧ StoreRule 0x00002023#32 4 .sw

/-- A branch (R140): no register, no memory byte and no log entry changes, and the branch itself never halts (R141). That the
target wraps is decision D9 (log entry 10). -/
def Sys2Proof.Machine.BranchRule (pattern : Word) (mk : Reg → Reg → BitVec 13 → Instr) (taken : Word → Word → Prop) : Prop :=
  (∀ mode w, w &&& 0x0000707F#32 = pattern → decode mode w = .instr (mk (rs1Of w) (rs2Of w) (immBOf w))) ∧
  ∀ rs1 rs2 off s, ∃ t, exec (mk rs1 rs2 off) s = .next t ∧
    (taken (s.readReg rs1) (s.readReg rs2) → (t.pc.toNat : Int) = (s.pc.toNat + off.toInt) % 2 ^ 32) ∧
    (¬ taken (s.readReg rs1) (s.readReg rs2) → t.pc.toNat = (s.pc.toNat + 4) % 2 ^ 32) ∧
    RegsKept s t ∧ MemKept s t ∧ LogKept s t ∧ ControlKept s t

/-- The six branches (R142 to R147), in the shape of `BranchRule`. -/
def Obligations.Branches : Prop :=
  BranchRule 0x00000063#32 .beq (fun a b => a = b) ∧
  BranchRule 0x00001063#32 .bne (fun a b => a ≠ b) ∧
  BranchRule 0x00004063#32 .blt (fun a b => a.toInt < b.toInt) ∧
  BranchRule 0x00005063#32 .bge (fun a b => b.toInt ≤ a.toInt) ∧
  BranchRule 0x00006063#32 .bltu (fun a b => a.toNat < b.toNat) ∧
  BranchRule 0x00007063#32 .bgeu (fun a b => b.toNat ≤ a.toNat)

/-- JAL and JALR (R150, R151): the link value and the target, computed from the old registers; a misaligned target is no
matter for the jump (R152). Wrap, old registers and the funct3 check of JALR are decisions D9, D22 and D7 (log entries 10, 22, 14). -/
def Obligations.Jumps : Prop :=
  (∀ mode w, w &&& 0x0000007F#32 = 0x0000006F#32 → decode mode w = .instr (.jal (rdOf w) (immJOf w))) ∧
  (∀ mode w, w &&& 0x0000707F#32 = 0x00000067#32 → decode mode w = .instr (.jalr (rdOf w) (rs1Of w) (immIOf w))) ∧
  (∀ rd off s, ∃ t, exec (.jal rd off) s = .next t ∧
    (t.pc.toNat : Int) = (s.pc.toNat + off.toInt) % 2 ^ 32 ∧
    RegWritten rd (s.pc + 4#32) s t ∧ MemKept s t ∧ LogKept s t ∧ ControlKept s t) ∧
  (∀ rd rs1 imm s, ∃ t, exec (.jalr rd rs1 imm) s = .next t ∧
    (t.pc.toNat : Int) = ((s.readReg rs1).toNat + imm.toInt) % 2 ^ 32 / 2 * 2 ∧
    RegWritten rd (s.pc + 4#32) s t ∧ MemKept s t ∧ LogKept s t ∧ ControlKept s t)

/-- ECALL and EBREAK: the whole words, and the halt (R160, R161, R183). That the pc stays is the spec's own decision D8 (log entry 5). -/
def Obligations.EnvironmentCallAndBreakpoint : Prop :=
  (∀ mode w, decode mode w = .instr .ecall ↔ w = 0x00000073#32) ∧
  (∀ mode w, decode mode w = .instr .ebreak ↔ w = 0x00100073#32) ∧
  (∀ s, ∃ t, exec .ecall s = .next t ∧ HaltedWith .ecall s t ∧ LogKept s t ∧ t.insnCount = s.insnCount) ∧
  (∀ s, ∃ t, exec .ebreak s = .next t ∧ HaltedWith .ebreak s t ∧ LogKept s t ∧ t.insnCount = s.insnCount)

/-- FENCE (R163, the parameter of decision D4, log entry 3): with FENCE_MODE = nop it advances the pc and nothing else; with illegal it halts, pc unchanged. -/
def Obligations.FenceInBothModes : Prop :=
  (∀ w, w &&& 0x0000707F#32 = 0x0000000F#32 → ∃ fm pred succ rs1 rd, decode .nop w = .instr (.fence fm pred succ rs1 rd)) ∧
  (∀ w, opcodeOf w = 0b0001111#7 → (decode .illegal w).instr? = none) ∧
  (∀ w, opcodeOf w = 0b0001111#7 → funct3Of w ≠ 0b000#3 → (decode .nop w).instr? = none) ∧
  (∀ fm pred succ rs1 rd s, s.cfg.fenceMode = .nop → ∃ t, exec (.fence fm pred succ rs1 rd) s = .next t ∧
    t.pc = s.pc + 4#32 ∧ RegsKept s t ∧ MemKept s t ∧ LogKept s t ∧ ControlKept s t) ∧
  (∀ fm pred succ rs1 rd s, s.cfg.fenceMode = .illegal → ∃ t, exec (.fence fm pred succ rs1 rd) s = .next t ∧
    HaltedWith .illegalInstruction s t ∧ LogKept s t ∧ t.insnCount = s.insnCount)

/-- A stub advances the pc and does nothing else. -/
def Sys2Proof.Machine.StubEffect (i : Instr) : Prop :=
  ∀ s, ∃ t, exec i s = .next t ∧ t.pc = s.pc + 4#32 ∧ RegsKept s t ∧ MemKept s t ∧ LogKept s t ∧ ControlKept s t

/-- The six CSR stubs (R164 to R170): whatever the CSR address, the pc advances and `rd` is not written. The effect is the
spec's own decision D5 (log entry 4). -/
def Obligations.CsrStubs : Prop :=
  (∀ mode w, w &&& 0x0000707F#32 = 0x00001073#32 → decode mode w = .instr (.csrrw (rdOf w) (immIOf w) (rs1Of w))) ∧
  (∀ mode w, w &&& 0x0000707F#32 = 0x00002073#32 → decode mode w = .instr (.csrrs (rdOf w) (immIOf w) (rs1Of w))) ∧
  (∀ mode w, w &&& 0x0000707F#32 = 0x00003073#32 → decode mode w = .instr (.csrrc (rdOf w) (immIOf w) (rs1Of w))) ∧
  (∀ mode w, w &&& 0x0000707F#32 = 0x00005073#32 → decode mode w = .instr (.csrrwi (rdOf w) (immIOf w) (uimmOf w))) ∧
  (∀ mode w, w &&& 0x0000707F#32 = 0x00006073#32 → decode mode w = .instr (.csrrsi (rdOf w) (immIOf w) (uimmOf w))) ∧
  (∀ mode w, w &&& 0x0000707F#32 = 0x00007073#32 → decode mode w = .instr (.csrrci (rdOf w) (immIOf w) (uimmOf w))) ∧
  (∀ rd csr rs1, StubEffect (.csrrw rd csr rs1) ∧ StubEffect (.csrrs rd csr rs1) ∧ StubEffect (.csrrc rd csr rs1)) ∧
  (∀ rd csr uimm, StubEffect (.csrrwi rd csr uimm) ∧ StubEffect (.csrrsi rd csr uimm) ∧ StubEffect (.csrrci rd csr uimm))

/-! ## Registers -/

/-- x0 reads 0 whatever is written to it; a write changes its own register and nothing else (R11, R12). -/
def Obligations.RegisterZeroIsHardwired : Prop :=
  (∀ s : State, s.readReg 0 = 0#32 ∧ ∀ r, r ≠ 0 → s.readReg r = s.regs[r.val]) ∧
  (∀ (s : State) v, s.writeReg 0 v = s) ∧
  (∀ (s : State) rd r v, rd ≠ 0 → (s.writeReg rd v).readReg r = if r = rd then v else s.readReg r) ∧
  (∀ (s : State) rd v, (s.writeReg rd v).pc = s.pc ∧ MemKept s (s.writeReg rd v) ∧ LogKept s (s.writeReg rd v) ∧
    ControlKept s (s.writeReg rd v))

/-! ## The tick -/

/-- A step of a running hart with an aligned pc whose fetched word decodes runs that instruction, in the state that differs from
the old one by the count of the tick and the warnings of the fetch (R180, R38; the fetch's path is decision D11, log entry 12). -/
def Obligations.StepRunsTheDecodedInstruction : Prop :=
  ∀ s i, s.halted = false → pcAligned s.pc = true → decode s.cfg.fenceMode (s.memValue s.pc 4) = .instr i →
    ∃ u, step s = exec i u ∧ u.insnCount = s.insnCount + 1 ∧ AccessLogged s.pc 4 s u ∧
      u.regs = s.regs ∧ u.pc = s.pc ∧ u.mem = s.mem ∧ u.halted = false ∧ u.haltReason = s.haltReason ∧ SetupKept s u

/-- Halted is terminal (R188): no number of ticks changes a halted hart; the host's reset makes it run again, from pc 0. -/
def Obligations.HaltedIsTerminal : Prop :=
  (∀ s t, s.halted = true → Reachable s t → t = s) ∧
  (∀ s : State, s.hartReset.halted = false ∧ s.hartReset.pc = 0#32 ∧ s.hartReset.haltReason = .none)

/-- PC alignment error (R181): a misaligned pc halts the tick before any fetch; and only a taken branch, a JAL or a JALR makes an
aligned pc misaligned, its target then being 2 modulo 4. -/
def Obligations.PcAlignmentError : Prop :=
  (∀ s, s.halted = false → pcAligned s.pc = false →
    ∃ t, step s = .next t ∧ HaltedWith .pcAlignment s t ∧ LogKept s t ∧ t.insnCount = s.insnCount + 1) ∧
  (∀ s t, s.halted = false → pcAligned s.pc = true → step s = .next t → pcAligned t.pc = false →
    t.pc.toNat % 4 = 2 ∧ t.halted = false ∧ ∃ i, decode s.cfg.fenceMode (s.memValue s.pc 4) = .instr i ∧
      i.mnemonic ∈ ["BEQ", "BNE", "BLT", "BGE", "BLTU", "BGEU", "JAL", "JALR"]) ∧
  (∀ s : State, pcAligned s.hartReset.pc = true) ∧
  (∀ pc, pcAligned pc = true → pcAligned (pc + 4#32) = true)

/-- Function codes that no row lists halt the hart without touching a register or memory, whatever the rest of the word: in OP
(R92), OP-IMM (R110), LOAD (R128) and STORE (R135). -/
def Obligations.UnlistedFunctionCodesHalt : Prop :=
  ∀ s w, s.halted = false → pcAligned s.pc = true → s.memValue s.pc 4 = w →
    ((opcodeOf w = 0b0110011#7 ∧ funct7Of w ≠ 0b0000000#7 ∧
        ¬ (funct7Of w = 0b0100000#7 ∧ (funct3Of w = 0b000#3 ∨ funct3Of w = 0b101#3))) ∨
     (opcodeOf w = 0b0010011#7 ∧ funct3Of w = 0b001#3 ∧ funct7Of w ≠ 0b0000000#7) ∨
     (opcodeOf w = 0b0010011#7 ∧ funct3Of w = 0b101#3 ∧ funct7Of w ≠ 0b0000000#7 ∧ funct7Of w ≠ 0b0100000#7) ∨
     (opcodeOf w = 0b0000011#7 ∧ (funct3Of w = 0b011#3 ∨ funct3Of w = 0b110#3 ∨ funct3Of w = 0b111#3)) ∨
     (opcodeOf w = 0b0100011#7 ∧ 3 ≤ (funct3Of w).toNat)) →
    ∃ t, step s = .next t ∧ t.halted = true ∧ t.haltReason = .illegalInstruction ∧ RegsKept s t ∧ MemKept s t ∧
      AccessLogged s.pc 4 s t

/-- A word that matches no row halts the tick (R182): nothing but the counter, the halt and the fetch's own warnings changes. That
the pc stays is decision D8 (log entry 5). -/
def Obligations.IllegalWordHalts : Prop :=
  ∀ s, s.halted = false → pcAligned s.pc = true → (∀ r ∈ rowsOf s.cfg.fenceMode, r.accepts (s.memValue s.pc 4) = false) →
    ∃ t, step s = .next t ∧ HaltedWith .illegalInstruction s t ∧ AccessLogged s.pc 4 s t ∧ t.insnCount = s.insnCount + 1

/-- A fetch is never partly legal, and one outside memory returns 0 and halts with four warnings (R38, decision D11, log entry 12). That the
pc stays after the halt is decision D8 (log entry 5), that the warnings stand in a log decision D12, their order open (log entry 6). -/
def Obligations.FetchOutsideMemoryHalts : Prop :=
  ∀ s, pcAligned s.pc = true →
    ((∀ i, i < 4 → legalAddr s.size (s.pc + BitVec.ofNat 32 i) = legalAddr s.size s.pc)) ∧
    (legalAddr s.size s.pc = false → s.memValue s.pc 4 = 0#32 ∧
      (s.halted = false → ∃ t ws, step s = .next t ∧ HaltedWith .illegalInstruction s t ∧
        t.diagLog = s.diagLog ++ ws ∧ ws.Perm [s.pc, s.pc + 1#32, s.pc + 2#32, s.pc + 3#32]))

/-- Halts are precise, and the reasons are exactly the four causes (R184, R185): when a tick halts the hart, no register, no byte
and not the pc has changed (decision D8, log entry 5), and the reason tells the cause. -/
def Obligations.HaltsArePreciseAndOfFourCauses : Prop :=
  ∀ s t, s.halted = false → step s = .next t → t.halted = true →
    HaltedWith t.haltReason s t ∧ t.insnCount = s.insnCount + 1 ∧
    ((t.haltReason = .pcAlignment ∧ pcAligned s.pc = false ∧ LogKept s t) ∨
     (t.haltReason = .ecall ∧ pcAligned s.pc = true ∧ s.memValue s.pc 4 = 0x00000073#32) ∨
     (t.haltReason = .ebreak ∧ pcAligned s.pc = true ∧ s.memValue s.pc 4 = 0x00100073#32) ∨
     (t.haltReason = .illegalInstruction ∧ pcAligned s.pc = true ∧
      ∀ r ∈ rowsOf s.cfg.fenceMode, r.accepts (s.memValue s.pc 4) = false))

/-- The codes and strings of the halt reasons (R16, R185); the codes are the spec's labels, decision D16. -/
def Obligations.HaltReasonCodesAndStrings : Prop :=
  (HaltReason.none.code = 0 ∧ HaltReason.ecall.code = 1 ∧ HaltReason.ebreak.code = 2 ∧
    HaltReason.illegalInstruction.code = 3 ∧ HaltReason.pcAlignment.code = 4) ∧
  HaltReason.ecall.text = "ECALL instruction" ∧ HaltReason.ebreak.text = "EBREAK instruction" ∧
  HaltReason.illegalInstruction.text = "Illegal instruction" ∧ HaltReason.pcAlignment.text = "PC alignment error"

/-- Every step answers a next state: no fault, no refusal, on any state (R184, R187). That a halt is a next state, and so no fault,
is the model's choice (log entry 23). -/
def Obligations.EveryStepAnswersANextState : Prop := ∀ s, ∃ t, step s = .next t

/-- The instruction counter counts every tick begun while running, and only those (R17, R188); that it never wraps is decision D18
(log entry 9). -/
def Obligations.CounterCountsRunningTicks : Prop :=
  ∀ s t, step s = .next t → t.insnCount = if s.halted then s.insnCount else s.insnCount + 1

/-- No step changes a parameter or a trace flag, and the trace flags change nothing (R18, R25, decision D21, log entry 17). -/
def Obligations.TraceFlagsChangeNothing : Prop :=
  (∀ s t, step s = .next t → SetupKept s t) ∧
  (∀ s t i r, step s = .next t → step (s.setTrace i r) = .next (t.setTrace i r))

/-- The diagnostic log only grows, by illegal addresses only (R21, R33, decision D12). -/
def Obligations.LogOnlyGrowsByIllegalAddresses : Prop :=
  ∀ s t, step s = .next t → ∃ ws, t.diagLog = s.diagLog ++ ws ∧ ∀ a ∈ ws, legalAddr s.size a = false

/-- A program can observe neither the counter nor the log nor the trace flags: from states that look the same to it, one step
leads to states that look the same to it (R17, R18, R21). That tracing has no effect is decision D21 (log entry 17), that the
program cannot see the warnings, kept as a log, decision D12 (log entry 6). The premise on memory is an invariant. -/
def Obligations.ProgramSeesOnlyVisibleState : Prop :=
  ∀ s s' t t', s.mem.wf → s'.mem.wf → SameToProgram s s' → step s = .next t → step s' = .next t' → SameToProgram t t'

/-! ## Memory -/

/-- Legal addresses (R31): those below MEM_SIZE, which is MEM_SIZE_CFG rounded up to a multiple of 16 (R20); the top sixteen
addresses are never legal. The bound on MEM_SIZE_CFG is decision D13 (log entry 2). -/
def Obligations.LegalAddressesAreBelowMemSize : Prop :=
  (∀ (s : State) (a : Word), legalAddr s.size a = true ↔ a.toNat < s.size) ∧
  (∀ c : Config, 16 ∣ memSize c ∧ c.memSizeCfg.val ≤ memSize c ∧ memSize c < c.memSizeCfg.val + 16 ∧ memSize c ≤ 0xFFFFFFF0) ∧
  (∀ (s : State) (a : Word), 0xFFFFFFF0 ≤ a.toNat → legalAddr s.size a = false)

/-- One byte read (R32): the byte and no effect where legal; 0 and one warning where illegal, nothing else. The warning's form, an
entry of the log, is decision D12; `orderCount` is the model's own (log entry 7). -/
def Obligations.ByteReadRule : Prop :=
  ∀ (s : State) (a : Word),
    (legalAddr s.size a = true → (s.memValue a 1).toNat = (s.mem.getByte a.toNat).toNat ∧ s.afterRead a 1 = s) ∧
    (legalAddr s.size a = false → s.memValue a 1 = 0#32 ∧
      s.afterRead a 1 = { s with diagLog := s.diagLog ++ [a], orderCount := s.orderCount + 1 })

/-- One byte write (R34): stored where legal; dropped with one warning where illegal (the log is decision D12). -/
def Obligations.ByteWriteRule : Prop :=
  ∀ (s : State) (a v : Word), s.mem.wf →
    (legalAddr s.size a = true → (s.memWrite a 1 v).byteAt a = v.extractLsb' 0 8 ∧
      (∀ x, x ≠ a → (s.memWrite a 1 v).byteAt x = s.byteAt x) ∧ (s.memWrite a 1 v).diagLog = s.diagLog) ∧
    (legalAddr s.size a = false → (s.memWrite a 1 v).mem = s.mem ∧ (s.memWrite a 1 v).diagLog = s.diagLog ++ [a]) ∧
    ((s.memWrite a 1 v).halted = s.halted ∧ (s.memWrite a 1 v).pc = s.pc ∧ (s.memWrite a 1 v).regs = s.regs)

/-- Memory is little-endian for data and for fetch (R30): reads compose and writes decompose, byte by byte. -/
def Obligations.MemoryIsLittleEndian : Prop :=
  (∀ (s : State) (a : Word), s.memValue a 2 = s.memValue a 1 ||| s.memValue (a + 1#32) 1 <<< 8) ∧
  (∀ (s : State) (a : Word), s.memValue a 4 = s.memValue a 2 ||| s.memValue (a + 2#32) 2 <<< 16) ∧
  (∀ s : State, s.fetchWord = s.memValue s.pc 1 ||| s.memValue (s.pc + 1#32) 1 <<< 8 |||
    s.memValue (s.pc + 2#32) 1 <<< 16 ||| s.memValue (s.pc + 3#32) 1 <<< 24) ∧
  (∀ (s : State) (a v : Word), (s.memWrite a 2 v).mem = ((s.memWrite a 1 v).memWrite (a + 1#32) 1 (v >>> 8)).mem) ∧
  (∀ (s : State) (a v : Word), (s.memWrite a 4 v).mem = ((s.memWrite a 2 v).memWrite (a + 2#32) 2 (v >>> 16)).mem)

/-- The properties of the primitives (R37, a derived rule): the word round trip, the composition, and an illegal byte. -/
def Obligations.MemoryPrimitiveProperties : Prop :=
  (∀ (s : State) (a v : Word), s.mem.wf → (∀ i, i < 4 → legalAddr s.size (a + BitVec.ofNat 32 i) = true) →
    (s.memWrite a 4 v).memValue a 4 = v) ∧
  (∀ (s : State) (a : Word), s.memValue a 2 = s.memValue a 1 ||| s.memValue (a + 1#32) 1 <<< 8) ∧
  (∀ (s : State) (a : Word), s.memValue a 4 = s.memValue a 2 ||| s.memValue (a + 2#32) 2 <<< 16) ∧
  (∀ (s : State) (a v : Word), legalAddr s.size a = false → s.memValue a 1 = 0#32 ∧ (s.memWrite a 1 v).mem = s.mem)

/-- A canonical memory is determined by what it holds: two that agree at every address are the same list (log entry 18). -/
def Obligations.CanonicalMemoryIsUnique : Prop :=
  ∀ m m' : Memory, m.wf → m'.wf → (∀ a, m.getByte a = m'.getByte a) → m = m'

/-- A store is seen by the next fetch (R44), whichever of the three stores and however it overlaps the next instruction: each byte
of the word the next tick fetches is the byte just stored there, or the old one where the store does not reach. Address wrap and
alignment are decisions D9 and D10 (log entries 10 and 11), the path of the fetch D11 (log entry 12). -/
def Obligations.StoreIsSeenByTheNextFetch : Prop :=
  ∀ s rs1 rs2 imm, s.mem.wf → ∀ p ∈ [(Instr.sb rs1 rs2 imm, 1), (Instr.sh rs1 rs2 imm, 2), (Instr.sw rs1 rs2 imm, 4)],
    ∃ t, exec p.1 s = .next t ∧ t.pc = s.pc + 4#32 ∧
      (∀ k j, k < 4 → j < p.2 → t.pc + BitVec.ofNat 32 k = s.effAddr rs1 imm + BitVec.ofNat 32 j →
        t.fetchWord.extractLsb' (8 * k) 8 =
          if legalAddr s.size (t.pc + BitVec.ofNat 32 k) then (s.readReg rs2).extractLsb' (8 * j) 8 else 0#8) ∧
      (∀ k, k < 4 → (∀ j, j < p.2 → t.pc + BitVec.ofNat 32 k ≠ s.effAddr rs1 imm + BitVec.ofNat 32 j) →
        t.fetchWord.extractLsb' (8 * k) 8 = s.byteAt (t.pc + BitVec.ofNat 32 k)) ∧
      (p.2 = 4 → s.effAddr rs1 imm = t.pc → (∀ i, i < 4 → legalAddr s.size (t.pc + BitVec.ofNat 32 i) = true) →
        t.fetchWord = s.readReg rs2)

/-! ## Invariants -/

/-- From every state that has the invariant, a step gives a state that has it. -/
def Obligations.EveryStepKeepsTheInvariant : Prop := ∀ s t, MachineInv s → step s = .next t → MachineInv t

/-- The state after reset has the invariant. -/
def Obligations.ResetHasTheInvariant : Prop := MachineInv State.reset

/-- Every state of every run, with any parameters, any trace flags and any image that fits, has the invariant; so the halt reason
of such a state is one of the four exactly when it is halted, and its memory is canonical and inside MEM_SIZE. Where a run starts (`RunStart`) rests on decisions D14,
D25 and D26 (log entries 15 and 19). -/
def Obligations.EveryRunKeepsTheInvariant : Prop := ∀ s t, RunStart s → Reachable s t → MachineInv t

/-! ## Reset, image and run -/

/-- The register-file reset (R201): every register holds the sentinel but x0, which holds 0; construction leaves the same. That a
hart reset performs it is decision D14 (log entry 15). -/
def Obligations.RegisterFileReset : Prop :=
  (∀ (s : State) r, s.hartReset.readReg r = if r = 0 then 0#32 else 0xF0F0F0F0#32) ∧
  (∀ s : State, s.hartReset.regs[0] = 0#32) ∧
  (∀ c, (State.construct c).regs = State.reset.hartReset.regs)

/-- Reset (R200): pc, flags and counter, and the register file; memory, the log, the trace flags and the parameters stay. Which
state a reset clears is decisions D14 and D26 (log entry 15). -/
def Obligations.HartResetRule : Prop :=
  ∀ s : State,
    (∀ r, s.hartReset.readReg r = if r = 0 then 0#32 else 0xF0F0F0F0#32) ∧
    s.hartReset.pc = 0#32 ∧ s.hartReset.halted = false ∧ s.hartReset.haltReason = .none ∧ s.hartReset.insnCount = 0 ∧
    s.hartReset.mem = s.mem ∧ s.hartReset.diagLog = s.diagLog ∧ SetupKept s s.hartReset

/-- The image load (R203, R202, decisions D25 and D26, log entry 19): it fits or it fails; image bytes at 0 upward, the fill byte
beyond; registers, pc, log, halt state, counter, trace flags and parameters as construction left them. -/
def Obligations.ImageLoadRule : Prop :=
  ∀ c image,
    (image.length ≤ memSize c → ∃ m, (State.construct c).loadImage image = some m ∧
      (∀ a : Word, m.byteAt a = if legalAddr (memSize c) a then (image[a.toNat]?).getD 0xA5#8 else 0#8) ∧
      RegsKept (State.construct c) m ∧ m.pc = 0#32 ∧ m.diagLog = [] ∧ ControlKept (State.construct c) m) ∧
    (memSize c < image.length → (State.construct c).loadImage image = none)

/-- The run loop (R205, R206): with a limit not yet passed the run ends, halted or with the counter at the limit, never
beyond it, and more fuel changes nothing. The test `<` is decision D17. -/
def Obligations.LimitedRunEnds : Prop :=
  ∀ limit s, limit ≠ 0 → s.insnCount ≤ limit →
    ∃ t, (∀ fuel, limit - s.insnCount ≤ fuel → runLoop limit fuel s = .next t) ∧
      (t.halted = true ∨ t.insnCount = limit) ∧ t.insnCount ≤ limit ∧ endOfRun limit t = true ∧ Reachable s t

/-- The run loop without a limit (R205, R206): it goes on exactly while the hart runs, so it stops of itself only in a halted state;
otherwise it has made all the ticks it was given. The loop's condition is decision D17. -/
def Obligations.UnlimitedRunStopsOnlyHalted : Prop :=
  (∀ s : State, runContinues 0 s = !s.halted ∧ endOfRun 0 s = s.halted) ∧
  (∀ fuel s, ∃ t, runLoop 0 fuel s = .next t ∧ Reachable s t ∧
    (t.halted = false → t.insnCount = s.insnCount + fuel) ∧
    (t.halted = true → ∀ more, fuel ≤ more → runLoop 0 more s = .next t))
end

