-- ==== Sys2Proof/Laws/Encoding.lean ====
section
/-! SUPPORT. The laws of the encoding: every field of a word a format builds is the field it was built from, and a word that
matches a row of the opcode table has the row's opcode, funct3 and funct7. -/

namespace Sys2Proof

/-! ## Parts of a word -/

theorem getLsbD_place {k : Nat} (n lo : Nat) (v : BitVec k) (i : Nat) :
    (place n lo v).getLsbD i = (decide (i < n) && (decide (lo ≤ i) && v.getLsbD (i - lo))) := by
  unfold place
  by_cases h1 : i < n <;> by_cases h2 : lo ≤ i <;> simp [h1, h2]

/-- A slice of an OR is the OR of the slices. -/
theorem extract_or {n : Nat} (x y : BitVec n) (s l : Nat) :
    (x ||| y).extractLsb' s l = x.extractLsb' s l ||| y.extractLsb' s l := by
  apply BitVec.eq_of_getLsbD_eq
  intro i hi
  simp [hi]

/-- The slice a part was placed at is the part. -/
theorem extract_place_same {k : Nat} (n lo : Nat) (v : BitVec k) (h : lo + k ≤ n) :
    (place n lo v).extractLsb' lo k = v := by
  apply BitVec.eq_of_getLsbD_eq
  intro i hi
  have : lo + i < n := by omega
  simp only [BitVec.getLsbD_extractLsb', getLsbD_place]
  simp [this, hi]

/-- A slice that does not meet a part reads 0 from it. -/
theorem extract_place_apart {k : Nat} (n lo s l : Nat) (v : BitVec k) (h : lo + k ≤ s ∨ s + l ≤ lo) :
    (place n lo v).extractLsb' s l = 0#l := by
  apply BitVec.eq_of_getLsbD_eq
  intro i hi
  simp only [BitVec.getLsbD_extractLsb', getLsbD_place, BitVec.getLsbD_zero, hi, decide_true, Bool.true_and]
  rcases h with h | h
  · rw [BitVec.getLsbD_of_ge _ _ (by omega)]; simp
  · have : ¬ lo ≤ s + i := by omega
    simp [this]

theorem regOf_regField (r : Reg) : regOf (regField r) = r := by
  ext; simp [regOf, regField]

theorem regField_regOf (v : BitVec 5) : regField (regOf v) = v := by
  simp [regOf, regField]

/-! ## The fields of a built word -/

@[simp] theorem opcodeOf_encR (f7 : BitVec 7) (f3 : BitVec 3) (op : BitVec 7) (rd rs1 rs2 : Reg) :
    opcodeOf (encR f7 f3 op rd rs1 rs2) = op := by
  simp (disch := decide) [opcodeOf, encR, extract_or, extract_place_same, extract_place_apart]
@[simp] theorem funct3Of_encR (f7 : BitVec 7) (f3 : BitVec 3) (op : BitVec 7) (rd rs1 rs2 : Reg) :
    funct3Of (encR f7 f3 op rd rs1 rs2) = f3 := by
  simp (disch := decide) [funct3Of, encR, extract_or, extract_place_same, extract_place_apart]
@[simp] theorem funct7Of_encR (f7 : BitVec 7) (f3 : BitVec 3) (op : BitVec 7) (rd rs1 rs2 : Reg) :
    funct7Of (encR f7 f3 op rd rs1 rs2) = f7 := by
  simp (disch := decide) [funct7Of, encR, extract_or, extract_place_same, extract_place_apart]
@[simp] theorem rdOf_encR (f7 : BitVec 7) (f3 : BitVec 3) (op : BitVec 7) (rd rs1 rs2 : Reg) :
    rdOf (encR f7 f3 op rd rs1 rs2) = rd := by
  simp (disch := decide) [rdOf, encR, extract_or, regOf_regField, extract_place_same, extract_place_apart]
@[simp] theorem rs1Of_encR (f7 : BitVec 7) (f3 : BitVec 3) (op : BitVec 7) (rd rs1 rs2 : Reg) :
    rs1Of (encR f7 f3 op rd rs1 rs2) = rs1 := by
  simp (disch := decide) [rs1Of, encR, extract_or, regOf_regField, extract_place_same, extract_place_apart]
@[simp] theorem rs2Of_encR (f7 : BitVec 7) (f3 : BitVec 3) (op : BitVec 7) (rd rs1 rs2 : Reg) :
    rs2Of (encR f7 f3 op rd rs1 rs2) = rs2 := by
  simp (disch := decide) [rs2Of, encR, extract_or, regOf_regField, extract_place_same, extract_place_apart]

@[simp] theorem opcodeOf_encI (f3 : BitVec 3) (op : BitVec 7) (rd rs1 : Reg) (imm : BitVec 12) :
    opcodeOf (encI f3 op rd rs1 imm) = op := by
  simp (disch := decide) [opcodeOf, encI, extract_or, extract_place_same, extract_place_apart]
@[simp] theorem funct3Of_encI (f3 : BitVec 3) (op : BitVec 7) (rd rs1 : Reg) (imm : BitVec 12) :
    funct3Of (encI f3 op rd rs1 imm) = f3 := by
  simp (disch := decide) [funct3Of, encI, extract_or, extract_place_same, extract_place_apart]
@[simp] theorem rdOf_encI (f3 : BitVec 3) (op : BitVec 7) (rd rs1 : Reg) (imm : BitVec 12) :
    rdOf (encI f3 op rd rs1 imm) = rd := by
  simp (disch := decide) [rdOf, encI, extract_or, regOf_regField, extract_place_same, extract_place_apart]
@[simp] theorem rs1Of_encI (f3 : BitVec 3) (op : BitVec 7) (rd rs1 : Reg) (imm : BitVec 12) :
    rs1Of (encI f3 op rd rs1 imm) = rs1 := by
  simp (disch := decide) [rs1Of, encI, extract_or, regOf_regField, extract_place_same, extract_place_apart]
@[simp] theorem immIOf_encI (f3 : BitVec 3) (op : BitVec 7) (rd rs1 : Reg) (imm : BitVec 12) :
    immIOf (encI f3 op rd rs1 imm) = imm := by
  simp (disch := decide) [immIOf, encI, extract_or, extract_place_same, extract_place_apart]

@[simp] theorem opcodeOf_encShift (f7 : BitVec 7) (f3 : BitVec 3) (rd rs1 : Reg) (shamt : BitVec 5) :
    opcodeOf (encShift f7 f3 rd rs1 shamt) = 0b0010011#7 := by
  simp (disch := decide) [opcodeOf, encShift, extract_or, extract_place_same, extract_place_apart]
@[simp] theorem funct3Of_encShift (f7 : BitVec 7) (f3 : BitVec 3) (rd rs1 : Reg) (shamt : BitVec 5) :
    funct3Of (encShift f7 f3 rd rs1 shamt) = f3 := by
  simp (disch := decide) [funct3Of, encShift, extract_or, extract_place_same, extract_place_apart]
@[simp] theorem funct7Of_encShift (f7 : BitVec 7) (f3 : BitVec 3) (rd rs1 : Reg) (shamt : BitVec 5) :
    funct7Of (encShift f7 f3 rd rs1 shamt) = f7 := by
  simp (disch := decide) [funct7Of, encShift, extract_or, extract_place_same, extract_place_apart]
@[simp] theorem rdOf_encShift (f7 : BitVec 7) (f3 : BitVec 3) (rd rs1 : Reg) (shamt : BitVec 5) :
    rdOf (encShift f7 f3 rd rs1 shamt) = rd := by
  simp (disch := decide) [rdOf, encShift, extract_or, regOf_regField, extract_place_same, extract_place_apart]
@[simp] theorem rs1Of_encShift (f7 : BitVec 7) (f3 : BitVec 3) (rd rs1 : Reg) (shamt : BitVec 5) :
    rs1Of (encShift f7 f3 rd rs1 shamt) = rs1 := by
  simp (disch := decide) [rs1Of, encShift, extract_or, regOf_regField, extract_place_same, extract_place_apart]
@[simp] theorem shamtOf_encShift (f7 : BitVec 7) (f3 : BitVec 3) (rd rs1 : Reg) (shamt : BitVec 5) :
    shamtOf (encShift f7 f3 rd rs1 shamt) = shamt := by
  simp (disch := decide) [shamtOf, encShift, extract_or, extract_place_same, extract_place_apart]

@[simp] theorem opcodeOf_encS (f3 : BitVec 3) (rs1 rs2 : Reg) (imm : BitVec 12) :
    opcodeOf (encS f3 rs1 rs2 imm) = 0b0100011#7 := by
  simp (disch := decide) [opcodeOf, encS, extract_or, extract_place_same, extract_place_apart]
@[simp] theorem funct3Of_encS (f3 : BitVec 3) (rs1 rs2 : Reg) (imm : BitVec 12) :
    funct3Of (encS f3 rs1 rs2 imm) = f3 := by
  simp (disch := decide) [funct3Of, encS, extract_or, extract_place_same, extract_place_apart]
@[simp] theorem rs1Of_encS (f3 : BitVec 3) (rs1 rs2 : Reg) (imm : BitVec 12) :
    rs1Of (encS f3 rs1 rs2 imm) = rs1 := by
  simp (disch := decide) [rs1Of, encS, extract_or, regOf_regField, extract_place_same, extract_place_apart]
@[simp] theorem rs2Of_encS (f3 : BitVec 3) (rs1 rs2 : Reg) (imm : BitVec 12) :
    rs2Of (encS f3 rs1 rs2 imm) = rs2 := by
  simp (disch := decide) [rs2Of, encS, extract_or, regOf_regField, extract_place_same, extract_place_apart]

@[simp] theorem opcodeOf_encB (f3 : BitVec 3) (rs1 rs2 : Reg) (off : BitVec 13) :
    opcodeOf (encB f3 rs1 rs2 off) = 0b1100011#7 := by
  simp (disch := decide) [opcodeOf, encB, extract_or, extract_place_same, extract_place_apart]
@[simp] theorem funct3Of_encB (f3 : BitVec 3) (rs1 rs2 : Reg) (off : BitVec 13) :
    funct3Of (encB f3 rs1 rs2 off) = f3 := by
  simp (disch := decide) [funct3Of, encB, extract_or, extract_place_same, extract_place_apart]
@[simp] theorem rs1Of_encB (f3 : BitVec 3) (rs1 rs2 : Reg) (off : BitVec 13) :
    rs1Of (encB f3 rs1 rs2 off) = rs1 := by
  simp (disch := decide) [rs1Of, encB, extract_or, regOf_regField, extract_place_same, extract_place_apart]
@[simp] theorem rs2Of_encB (f3 : BitVec 3) (rs1 rs2 : Reg) (off : BitVec 13) :
    rs2Of (encB f3 rs1 rs2 off) = rs2 := by
  simp (disch := decide) [rs2Of, encB, extract_or, regOf_regField, extract_place_same, extract_place_apart]

@[simp] theorem opcodeOf_encU (op : BitVec 7) (rd : Reg) (imm20 : BitVec 20) :
    opcodeOf (encU op rd imm20) = op := by
  simp (disch := decide) [opcodeOf, encU, extract_or, extract_place_same, extract_place_apart]
@[simp] theorem rdOf_encU (op : BitVec 7) (rd : Reg) (imm20 : BitVec 20) :
    rdOf (encU op rd imm20) = rd := by
  simp (disch := decide) [rdOf, encU, extract_or, regOf_regField, extract_place_same, extract_place_apart]
@[simp] theorem immUOf_encU (op : BitVec 7) (rd : Reg) (imm20 : BitVec 20) :
    immUOf (encU op rd imm20) = imm20 := by
  simp (disch := decide) [immUOf, encU, extract_or, extract_place_same, extract_place_apart]

@[simp] theorem opcodeOf_encJ (rd : Reg) (off : BitVec 21) :
    opcodeOf (encJ rd off) = 0b1101111#7 := by
  simp (disch := decide) [opcodeOf, encJ, extract_or, extract_place_same, extract_place_apart]
@[simp] theorem rdOf_encJ (rd : Reg) (off : BitVec 21) :
    rdOf (encJ rd off) = rd := by
  simp (disch := decide) [rdOf, encJ, extract_or, regOf_regField, extract_place_same, extract_place_apart]

@[simp] theorem opcodeOf_encCsr (f3 : BitVec 3) (rd : Reg) (csr : BitVec 12) (src : BitVec 5) :
    opcodeOf (encCsr f3 rd csr src) = 0b1110011#7 := by
  simp (disch := decide) [opcodeOf, encCsr, extract_or, extract_place_same, extract_place_apart]
@[simp] theorem funct3Of_encCsr (f3 : BitVec 3) (rd : Reg) (csr : BitVec 12) (src : BitVec 5) :
    funct3Of (encCsr f3 rd csr src) = f3 := by
  simp (disch := decide) [funct3Of, encCsr, extract_or, extract_place_same, extract_place_apart]
@[simp] theorem rdOf_encCsr (f3 : BitVec 3) (rd : Reg) (csr : BitVec 12) (src : BitVec 5) :
    rdOf (encCsr f3 rd csr src) = rd := by
  simp (disch := decide) [rdOf, encCsr, extract_or, regOf_regField, extract_place_same, extract_place_apart]
@[simp] theorem immIOf_encCsr (f3 : BitVec 3) (rd : Reg) (csr : BitVec 12) (src : BitVec 5) :
    immIOf (encCsr f3 rd csr src) = csr := by
  simp (disch := decide) [immIOf, encCsr, extract_or, extract_place_same, extract_place_apart]
@[simp] theorem uimmOf_encCsr (f3 : BitVec 3) (rd : Reg) (csr : BitVec 12) (src : BitVec 5) :
    uimmOf (encCsr f3 rd csr src) = src := by
  simp (disch := decide) [uimmOf, encCsr, extract_or, extract_place_same, extract_place_apart]
@[simp] theorem rs1Of_encCsr (f3 : BitVec 3) (rd : Reg) (csr : BitVec 12) (src : BitVec 5) :
    rs1Of (encCsr f3 rd csr src) = regOf src := by
  simp (disch := decide) [rs1Of, encCsr, extract_or, extract_place_same, extract_place_apart]

@[simp] theorem opcodeOf_encFence (fm pred succ : BitVec 4) (rs1 rd : Reg) :
    opcodeOf (encFence fm pred succ rs1 rd) = 0b0001111#7 := by
  simp (disch := decide) [opcodeOf, encFence, extract_or, extract_place_same, extract_place_apart]
@[simp] theorem funct3Of_encFence (fm pred succ : BitVec 4) (rs1 rd : Reg) :
    funct3Of (encFence fm pred succ rs1 rd) = 0b000#3 := by
  simp (disch := decide) [funct3Of, encFence, extract_or, extract_place_apart]
@[simp] theorem rdOf_encFence (fm pred succ : BitVec 4) (rs1 rd : Reg) :
    rdOf (encFence fm pred succ rs1 rd) = rd := by
  simp (disch := decide) [rdOf, encFence, extract_or, regOf_regField, extract_place_same, extract_place_apart]
@[simp] theorem rs1Of_encFence (fm pred succ : BitVec 4) (rs1 rd : Reg) :
    rs1Of (encFence fm pred succ rs1 rd) = rs1 := by
  simp (disch := decide) [rs1Of, encFence, extract_or, regOf_regField, extract_place_same, extract_place_apart]

theorem fenceFields_encFence (fm pred succ : BitVec 4) (rs1 rd : Reg) :
    (encFence fm pred succ rs1 rd).extractLsb' 28 4 = fm ∧ (encFence fm pred succ rs1 rd).extractLsb' 24 4 = pred ∧
      (encFence fm pred succ rs1 rd).extractLsb' 20 4 = succ := by
  refine ⟨?_, ?_, ?_⟩ <;> simp (disch := decide) [encFence, extract_or, extract_place_same, extract_place_apart]

@[simp] theorem immSOf_encS (f3 : BitVec 3) (rs1 rs2 : Reg) (imm : BitVec 12) : immSOf (encS f3 rs1 rs2 imm) = imm := by
  simp (disch := decide) only [immSOf, encS, extract_or, extract_place_same, extract_place_apart, BitVec.or_zero, BitVec.zero_or]
  apply BitVec.eq_of_getLsbD_eq
  intro i hi
  simp only [BitVec.getLsbD_or, getLsbD_place, BitVec.getLsbD_extractLsb']
  interval_cases i <;> simp

/-- A branch displacement with a zero low bit is read back whole (R55). -/
theorem immBOf_encB (f3 : BitVec 3) (rs1 rs2 : Reg) (off : BitVec 13) (h : evenOffset off = true) :
    immBOf (encB f3 rs1 rs2 off) = off := by
  simp (disch := decide) only [immBOf, encB, extract_or, extract_place_same, extract_place_apart, BitVec.or_zero, BitVec.zero_or]
  apply BitVec.eq_of_getLsbD_eq
  intro i hi
  simp only [BitVec.getLsbD_or, getLsbD_place, BitVec.getLsbD_extractLsb']
  simp only [evenOffset, Bool.not_eq_true'] at h
  interval_cases i
  · simpa using h.symm
  all_goals simp

/-- A JAL displacement with a zero low bit is read back whole (R57). -/
theorem immJOf_encJ (rd : Reg) (off : BitVec 21) (h : evenOffset off = true) : immJOf (encJ rd off) = off := by
  simp (disch := decide) only [immJOf, encJ, extract_or, extract_place_same, extract_place_apart, BitVec.or_zero, BitVec.zero_or]
  apply BitVec.eq_of_getLsbD_eq
  intro i hi
  simp only [BitVec.getLsbD_or, getLsbD_place, BitVec.getLsbD_extractLsb']
  simp only [evenOffset, Bool.not_eq_true'] at h
  interval_cases i
  · simpa using h.symm
  all_goals simp


/-! ## A word is the word its own fields build -/

theorem rebuild_encR (w : Word) :
    encR (funct7Of w) (funct3Of w) (opcodeOf w) (rdOf w) (rs1Of w) (rs2Of w) = w := by
  apply BitVec.eq_of_getLsbD_eq
  intro i hi
  simp only [regField_regOf, encR, rdOf, rs1Of, rs2Of, funct7Of, funct3Of, opcodeOf, BitVec.getLsbD_or, getLsbD_place, BitVec.getLsbD_extractLsb']
  interval_cases i <;> simp

theorem rebuild_encI (w : Word) :
    encI (funct3Of w) (opcodeOf w) (rdOf w) (rs1Of w) (immIOf w) = w := by
  apply BitVec.eq_of_getLsbD_eq
  intro i hi
  simp only [regField_regOf, encI, rdOf, rs1Of, immIOf, funct3Of, opcodeOf, BitVec.getLsbD_or, getLsbD_place, BitVec.getLsbD_extractLsb']
  interval_cases i <;> simp

theorem rebuild_encShift (w : Word) (h : opcodeOf w = 0b0010011#7) :
    encShift (funct7Of w) (funct3Of w) (rdOf w) (rs1Of w) (shamtOf w) = w := by
  unfold encShift
  rw [← h]
  apply BitVec.eq_of_getLsbD_eq
  intro i hi
  simp only [regField_regOf, rdOf, rs1Of, shamtOf, funct7Of, funct3Of, opcodeOf, BitVec.getLsbD_or, getLsbD_place, BitVec.getLsbD_extractLsb']
  interval_cases i <;> simp

theorem rebuild_encS (w : Word) (h : opcodeOf w = 0b0100011#7) :
    encS (funct3Of w) (rs1Of w) (rs2Of w) (immSOf w) = w := by
  unfold encS
  rw [← h]
  apply BitVec.eq_of_getLsbD_eq
  intro i hi
  simp only [regField_regOf, rs1Of, rs2Of, immSOf, funct3Of, opcodeOf, BitVec.getLsbD_or, getLsbD_place, BitVec.getLsbD_extractLsb']
  interval_cases i <;> simp

theorem rebuild_encB (w : Word) (h : opcodeOf w = 0b1100011#7) :
    encB (funct3Of w) (rs1Of w) (rs2Of w) (immBOf w) = w := by
  unfold encB
  rw [← h]
  apply BitVec.eq_of_getLsbD_eq
  intro i hi
  simp only [regField_regOf, rs1Of, rs2Of, immBOf, funct3Of, opcodeOf, BitVec.getLsbD_or, getLsbD_place, BitVec.getLsbD_extractLsb']
  interval_cases i <;> simp

theorem rebuild_encU (w : Word) :
    encU (opcodeOf w) (rdOf w) (immUOf w) = w := by
  apply BitVec.eq_of_getLsbD_eq
  intro i hi
  simp only [regField_regOf, encU, rdOf, immUOf, opcodeOf, BitVec.getLsbD_or, getLsbD_place, BitVec.getLsbD_extractLsb']
  interval_cases i <;> simp

theorem rebuild_encJ (w : Word) (h : opcodeOf w = 0b1101111#7) :
    encJ (rdOf w) (immJOf w) = w := by
  unfold encJ
  rw [← h]
  apply BitVec.eq_of_getLsbD_eq
  intro i hi
  simp only [regField_regOf, rdOf, immJOf, opcodeOf, BitVec.getLsbD_or, getLsbD_place, BitVec.getLsbD_extractLsb']
  interval_cases i <;> simp

theorem rebuild_encCsr (w : Word) (h : opcodeOf w = 0b1110011#7) :
    encCsr (funct3Of w) (rdOf w) (immIOf w) (uimmOf w) = w := by
  unfold encCsr
  rw [← h]
  apply BitVec.eq_of_getLsbD_eq
  intro i hi
  simp only [regField_regOf, rdOf, immIOf, uimmOf, funct3Of, opcodeOf, BitVec.getLsbD_or, getLsbD_place, BitVec.getLsbD_extractLsb']
  interval_cases i <;> simp

/-- FENCE has no funct3 part in its builder: it is 0. -/
theorem rebuild_encFence (w : Word) (h : opcodeOf w = 0b0001111#7) (h3 : funct3Of w = 0b000#3) :
    encFence (w.extractLsb' 28 4) (w.extractLsb' 24 4) (w.extractLsb' 20 4) (rs1Of w) (rdOf w) = w := by
  have e : encFence (w.extractLsb' 28 4) (w.extractLsb' 24 4) (w.extractLsb' 20 4) (rs1Of w) (rdOf w) =
      encI (funct3Of w) (opcodeOf w) (rdOf w) (rs1Of w) (immIOf w) := by
    rw [encI, h, h3, encFence]
    apply BitVec.eq_of_getLsbD_eq
    intro i hi
    simp only [regField_regOf, rdOf, rs1Of, immIOf, BitVec.getLsbD_or, getLsbD_place, BitVec.getLsbD_extractLsb']
    interval_cases i <;> simp
  rw [e, rebuild_encI]

/-! ## Decoded instructions are well formed -/

theorem immBOf_even (w : Word) : evenOffset (immBOf w) = true := by
  simp [evenOffset, immBOf, place]

theorem immJOf_even (w : Word) : evenOffset (immJOf w) = true := by
  simp [evenOffset, immJOf, place]

theorem decode_wellFormed {mode : FenceMode} {w : Word} {i : Instr} (h : decode mode w = .instr i) :
    i.wellFormed = true := by
  unfold decode at h
  split at h
  case h_5 => unfold decodeBranch at h; split at h <;> cases h <;> exact immBOf_even w
  case h_6 => unfold decodeLoad at h; split at h <;> cases h <;> rfl
  case h_7 => unfold decodeStore at h; split at h <;> cases h <;> rfl
  case h_8 => unfold decodeOpImm at h; (repeat' split at h) <;> cases h <;> rfl
  case h_9 => unfold decodeOp at h; (repeat' split at h) <;> cases h <;> rfl
  case h_10 => unfold decodeMiscMem at h; (repeat' split at h) <;> cases h; rfl
  case h_11 => unfold decodeSystem at h; (repeat' split at h) <;> cases h <;> rfl
  case h_4 => split at h <;> cases h; rfl
  case h_3 => cases h; exact immJOf_even w
  all_goals cases h
  all_goals rfl

/-! ## A word that matches a row has the row's opcode, funct3 and funct7 (R60) -/

/-- A slice under a mask that keeps all of it. -/
theorem extract_and_mask (w mask : Word) (s l : Nat) (h : mask.extractLsb' s l = BitVec.allOnes l) :
    (w &&& mask).extractLsb' s l = w.extractLsb' s l := by
  apply BitVec.eq_of_getLsbD_eq
  intro i hi
  have := congrArg (fun v => BitVec.getLsbD v i) h
  simp only [BitVec.getLsbD_extractLsb', BitVec.getLsbD_allOnes, hi, decide_true, Bool.true_and] at this
  simp [hi, this]

theorem opcodeOf_match {w p : Word} (h : w &&& 0x0000007F#32 = p) : opcodeOf w = opcodeOf p := by
  rw [opcodeOf, opcodeOf, ← h, extract_and_mask _ _ _ _ (by decide)]

theorem fields_match3 {w p : Word} (h : w &&& 0x0000707F#32 = p) : opcodeOf w = opcodeOf p ∧ funct3Of w = funct3Of p := by
  constructor
  · rw [opcodeOf, opcodeOf, ← h, extract_and_mask _ _ _ _ (by decide)]
  · rw [funct3Of, funct3Of, ← h, extract_and_mask _ _ _ _ (by decide)]

theorem fields_match7 {w p : Word} (h : w &&& 0xFE00707F#32 = p) :
    opcodeOf w = opcodeOf p ∧ funct3Of w = funct3Of p ∧ funct7Of w = funct7Of p := by
  refine ⟨?_, ?_, ?_⟩
  · rw [opcodeOf, opcodeOf, ← h, extract_and_mask _ _ _ _ (by decide)]
  · rw [funct3Of, funct3Of, ← h, extract_and_mask _ _ _ _ (by decide)]
  · rw [funct7Of, funct7Of, ← h, extract_and_mask _ _ _ _ (by decide)]

/-! ## And back: a word with a row's opcode, funct3 and funct7 matches the row -/

theorem match_of_opcode (w : Word) : w &&& 0x0000007F#32 = place 32 0 (opcodeOf w) := by
  apply BitVec.eq_of_getLsbD_eq
  intro i hi
  simp only [opcodeOf, BitVec.getLsbD_and, getLsbD_place, BitVec.getLsbD_extractLsb']
  interval_cases i <;> simp

theorem match3_of_fields (w : Word) : w &&& 0x0000707F#32 = place 32 12 (funct3Of w) ||| place 32 0 (opcodeOf w) := by
  apply BitVec.eq_of_getLsbD_eq
  intro i hi
  simp only [opcodeOf, funct3Of, BitVec.getLsbD_and, BitVec.getLsbD_or, getLsbD_place, BitVec.getLsbD_extractLsb']
  interval_cases i <;> simp

theorem match7_of_fields (w : Word) :
    w &&& 0xFE00707F#32 = place 32 25 (funct7Of w) ||| place 32 12 (funct3Of w) ||| place 32 0 (opcodeOf w) := by
  apply BitVec.eq_of_getLsbD_eq
  intro i hi
  simp only [opcodeOf, funct3Of, funct7Of, BitVec.getLsbD_and, BitVec.getLsbD_or, getLsbD_place,
    BitVec.getLsbD_extractLsb']
  interval_cases i <;> simp

end Sys2Proof
end

