-- ==== Sys2Proof/Laws/Memory.lean ====
section
/-! SUPPORT. The laws of the byte store: reads after writes, the canonical form, and the wider accesses. -/

namespace Sys2Proof.Machine

/-! ## One byte -/

/-- An address below every listed one holds the fill byte. -/
theorem getByte_below {m : Memory} {x : Nat} (h : ∀ c ∈ m, x < c.1) : m.getByte x = memFill := by
  induction m with
  | nil => rfl
  | cons c m ih =>
    have h1 := h c (by simp)
    simp only [Memory.getByte, if_neg (Nat.ne_of_lt h1)]
    exact ih fun d hd => h d (by simp [hd])

/-- Reading after a byte write (R32, R34): the written address has the new byte, every other address its old one. -/
theorem getByte_setByte {m : Memory} (hm : m.wf) (x y : Nat) (v : Byte) :
    (m.setByte x v).getByte y = if y = x then v else m.getByte y := by
  induction m with
  | nil =>
    by_cases hv : v = memFill <;> by_cases hy : y = x <;> simp [Memory.setByte, Memory.getByte, hv, hy]
  | cons c m ih =>
    obtain ⟨a, b⟩ := c
    obtain ⟨hp, hf⟩ := hm
    rw [List.pairwise_cons] at hp
    have hwf : Memory.wf m := ⟨hp.2, fun d hd => hf d (by simp [hd])⟩
    have hab : ∀ z, z ≤ a → Memory.getByte m z = memFill := fun z hz =>
      getByte_below fun d hd => Nat.lt_of_le_of_lt hz (hp.1 d hd)
    unfold Memory.setByte
    split
    · rename_i hxa
      have hx : Memory.getByte ((a, b) :: m) x = memFill := by
        simp only [Memory.getByte, if_neg (Nat.ne_of_lt hxa)]; exact hab x (Nat.le_of_lt hxa)
      by_cases hv : v = memFill
      · by_cases hy : y = x <;> simp [hv, hy, hx]
      · by_cases hy : y = x <;> simp [hv, hy, Memory.getByte]
    · split
      · rename_i hxa
        subst hxa
        by_cases hv : v = memFill
        · by_cases hy : y = x <;> simp [hv, hy, Memory.getByte, hab]
        · by_cases hy : y = x <;> simp [hv, hy, Memory.getByte]
      · rename_i h1 h2
        have hne : ¬ a = x := fun e => h2 e.symm
        by_cases hya : y = a <;> simp [Memory.getByte, hya, hne, ih hwf]

/-- Every cell of a memory after a byte write is an old cell or the written one. -/
theorem mem_setByte {m : Memory} {x : Nat} {v : Byte} {c : Host.Cell} (h : c ∈ m.setByte x v) :
    c ∈ m ∨ (c = (x, v) ∧ v ≠ memFill) := by
  induction m with
  | nil =>
    by_cases hv : v = memFill <;> simp_all [Memory.setByte]
  | cons d m ih =>
    obtain ⟨a, b⟩ := d
    unfold Memory.setByte at h
    split at h
    · by_cases hv : v = memFill <;> simp_all
      tauto
    · split at h
      · by_cases hv : v = memFill <;> simp_all
        tauto
      · simp only [List.mem_cons] at h ⊢
        rcases h with h | h
        · exact .inl (.inl h)
        · rcases ih h with h | h
          · exact .inl (.inr h)
          · exact .inr h

/-- A byte write keeps the canonical form. -/
theorem setByte_wf {m : Memory} (hm : m.wf) (x : Nat) (v : Byte) : Memory.wf (m.setByte x v) := by
  refine ⟨?_, fun c hc => ?_⟩
  · obtain ⟨hp, -⟩ := hm
    induction m with
    | nil => by_cases hv : v = memFill <;> simp [Memory.setByte, hv]
    | cons d m ih =>
      obtain ⟨a, b⟩ := d
      have hp' := hp
      rw [List.pairwise_cons] at hp
      unfold Memory.setByte
      split
      · rename_i hxa
        by_cases hv : v = memFill
        · simpa [hv] using hp'
        · simp only [hv, if_false, List.pairwise_cons]
          refine ⟨fun c hc => ?_, hp⟩
          rcases List.mem_cons.1 hc with rfl | hc
          · exact hxa
          · exact Nat.lt_trans hxa (hp.1 c hc)
      · split
        · by_cases hv : v = memFill
          · simpa [hv] using hp.2
          · simp only [hv, if_false, List.pairwise_cons]
            exact hp
        · rename_i h1 h2
          refine List.pairwise_cons.2 ⟨fun c hc => ?_, ih hp.2⟩
          rcases mem_setByte hc with hc | ⟨rfl, -⟩
          · exact hp.1 c hc
          · show a < x
            omega
  · rcases mem_setByte hc with h | ⟨rfl, h⟩
    · exact hm.2 c h
    · exact h

/-- A byte write inside memory lists no cell outside it. -/
theorem setByte_within {m : Memory} {size x : Nat} {v : Byte} (hm : m.within size) (hx : x < size) :
    Memory.within size (m.setByte x v) := fun c hc => by
  rcases mem_setByte hc with h | ⟨rfl, -⟩
  · exact hm c h
  · exact hx

/-! ## Read8 and Write8 -/

/-- Reading one byte after writing one (R32, R34). -/
theorem read8_write8 {size : Nat} {m : Memory} (hm : m.wf) (a b : Word) (v : Byte) :
    read8 size (write8 size m a v) b = if legalAddr size b then (if b = a then v else read8 size m b) else 0#8 := by
  unfold read8 write8
  by_cases hb : legalAddr size b = true
  · by_cases ha : legalAddr size a = true
    · have : b.toNat = a.toNat ↔ b = a := ⟨BitVec.eq_of_toNat_eq, fun h => h ▸ rfl⟩
      simp [hb, ha, getByte_setByte hm, this]
    · have : b ≠ a := fun h => ha (h ▸ hb)
      simp [hb, ha, this]
  · simp [hb]

theorem write8_wf {size : Nat} {m : Memory} (hm : m.wf) (a : Word) (v : Byte) : Memory.wf (write8 size m a v) := by
  unfold write8; split
  · exact setByte_wf hm ..
  · exact hm

theorem write8_within {size : Nat} {m : Memory} (hm : m.within size) (a : Word) (v : Byte) :
    Memory.within size (write8 size m a v) := by
  unfold write8; split
  · exact setByte_within hm (by simpa [legalAddr] using ‹legalAddr size a = true›)
  · exact hm

/-! ## MemWrite and image placement -/

/-- `MemWrite` keeps the canonical form. -/
theorem writeBytes_wf {size : Nat} {m : Memory} (hm : m.wf) (a v : Word) (n : Nat) :
    Memory.wf (writeBytes size a v n m) := by
  induction n with
  | zero => exact hm
  | succ n ih => exact write8_wf ih ..

theorem writeBytes_within {size : Nat} {m : Memory} (hm : m.within size) (a v : Word) (n : Nat) :
    Memory.within size (writeBytes size a v n m) := by
  induction n with
  | zero => exact hm
  | succ n ih => exact write8_within ih _ _

/-- `MemWrite` leaves every byte outside its `n` addresses alone (R36). -/
theorem read8_writeBytes_ne {size : Nat} {m : Memory} (hm : m.wf) (a v x : Word) (n : Nat)
    (hx : ∀ i, i < n → x ≠ a + BitVec.ofNat 32 i) : read8 size (writeBytes size a v n m) x = read8 size m x := by
  induction n with
  | zero => rfl
  | succ n ih =>
    rw [writeBytes, read8_write8 (writeBytes_wf hm ..), if_neg (hx n (by omega)), ih fun i hi => hx i (by omega)]
    unfold read8; split <;> rfl

/-- Byte `i` of `MemWrite` (R36): stored where legal, dropped elsewhere. -/
theorem read8_writeBytes {size : Nat} {m : Memory} (hm : m.wf) (a v : Word) (n i : Nat) (hi : i < n) (hn : n ≤ 4) :
    read8 size (writeBytes size a v n m) (a + BitVec.ofNat 32 i) =
      if legalAddr size (a + BitVec.ofNat 32 i) then v.extractLsb' (8 * i) 8 else 0#8 := by
  induction n with
  | zero => omega
  | succ n ih =>
    rw [writeBytes, read8_write8 (writeBytes_wf hm ..)]
    by_cases h : i = n
    · simp [h]
    · have hne : a + BitVec.ofNat 32 i ≠ a + BitVec.ofNat 32 n := fun e => by
        have := congrArg BitVec.toNat (BitVec.add_right_inj _ |>.1 e)
        simp at this; omega
      rw [if_neg hne, ih (by omega) (by omega)]
      split <;> rfl

theorem placeBytes_wf {m : Memory} (hm : m.wf) (a : Nat) (bs : List Byte) : Memory.wf (placeBytes a bs m) := by
  induction bs generalizing a m with
  | nil => exact hm
  | cons b bs ih => exact ih (setByte_wf hm ..) _

theorem placeBytes_within {m : Memory} {size : Nat} (hm : m.within size) (a : Nat) (bs : List Byte)
    (h : a + bs.length ≤ size) : Memory.within size (placeBytes a bs m) := by
  induction bs generalizing a m with
  | nil => exact hm
  | cons b bs ih =>
    simp only [List.length_cons] at h
    exact ih (setByte_within hm (by omega)) _ (by omega)

/-! ## MemRead -/

/-- `MemRead` depends on the bytes at its addresses only. -/
theorem readBytes_congr {size size' : Nat} {m m' : Memory} (a : Word) (n : Nat)
    (h : ∀ i, i < n → read8 size m (a + BitVec.ofNat 32 i) = read8 size' m' (a + BitVec.ofNat 32 i)) :
    readBytes size m a n = readBytes size' m' a n := by
  induction n with
  | zero => rfl
  | succ n ih => rw [readBytes, readBytes, h n (by omega), ih fun i hi => h i (by omega)]

/-- Bit `k` of `MemRead(a, n)` is bit `k % 8` of the byte at `a + k / 8` (R35). -/
theorem readBytes_bit (size : Nat) (m : Memory) (a : Word) (n k : Nat) (hn : n ≤ 4) :
    (readBytes size m a n).getLsbD k =
      (decide (k < 8 * n) && (read8 size m (a + BitVec.ofNat 32 (k / 8))).getLsbD (k % 8)) := by
  induction n with
  | zero => simp [readBytes]
  | succ n ih =>
    rw [readBytes, BitVec.getLsbD_or, ih (by omega), BitVec.getLsbD_shiftLeft, BitVec.getLsbD_setWidth]
    by_cases h1 : k < 8 * n
    · have : k < 8 * (n + 1) := by omega
      simp [h1, this]
    · by_cases h2 : k < 8 * (n + 1)
      · have e1 : k / 8 = n := by omega
        have e2 : k % 8 = k - 8 * n := by omega
        have e3 : k < 32 := by omega
        have e4 : k - 8 * n < 32 := by omega
        simp [h1, h2, e1, e2, e3, e4]
      · have e1 : 8 ≤ k - 8 * n := by omega
        simp [h1, h2, BitVec.getLsbD_of_ge _ _ e1]

/-! ## Size, legal addresses and warnings -/

/-- `MEM_SIZE` (R20): a multiple of 16, at least `MEM_SIZE_CFG`, less than 16 more, and it fits in 32 bits. -/
theorem memSize_spec (c : Config) :
    16 ∣ memSize c ∧ c.memSizeCfg.val ≤ memSize c ∧ memSize c < c.memSizeCfg.val + 16 ∧ memSize c ≤ 0xFFFFFFF0 := by
  have := c.memSizeCfg.isLt
  unfold memSize
  refine ⟨⟨_, Nat.mul_comm _ _⟩, ?_, ?_, ?_⟩ <;> omega

/-- Whatever order the free value gives, the warnings are the same addresses (R35, U6). -/
theorem arrangeWarnings_perm (k : Nat) (as : List Word) : (arrangeWarnings k as).Perm as := by
  induction as generalizing k with
  | nil => exact .refl _
  | cons a as ih =>
    cases as with
    | nil => exact .refl _
    | cons b as =>
      have hlen : (arrangeWarnings (k + 1) (b :: as)).length = as.length + 1 := by
        simpa using (ih (k + 1)).length_eq
      refine (List.perm_insertIdx _ _ ?_).trans ((ih (k + 1)).cons a)
      have := Nat.mod_lt (Config.freeOrder k) (by omega : 0 < as.length + 2)
      omega

/-- Every logged warning of an access is for an illegal address. -/
theorem illegalAddrs_illegal {size : Nat} {a x : Word} {n : Nat} (h : x ∈ illegalAddrs size a n) :
    legalAddr size x = false := by
  simpa using (List.mem_filter.1 h).2

/-- An access whose bytes are all legal logs nothing. -/
theorem illegalAddrs_eq_nil {size : Nat} {a : Word} {n : Nat}
    (h : ∀ i, i < n → legalAddr size (a + BitVec.ofNat 32 i) = true) : illegalAddrs size a n = [] := by
  unfold illegalAddrs accessAddrs
  rw [List.filter_eq_nil_iff]
  intro x hx
  obtain ⟨i, hi, rfl⟩ := List.mem_map.1 hx
  simp [h i (List.mem_range.1 hi)]

end Sys2Proof.Machine
end

