-- ==== Sys2Proof/Laws/State.lean ====
section
/-! SUPPORT. One lemma per field per update of the state, so that no proof unfolds an update. -/

namespace Sys2Proof.Machine

variable (s : State)

@[simp] theorem setPc_regs (t : Word) : (s.setPc t).regs = s.regs := rfl
@[simp] theorem setPc_pc (t : Word) : (s.setPc t).pc = t := rfl
@[simp] theorem setPc_halted (t : Word) : (s.setPc t).halted = s.halted := rfl
@[simp] theorem setPc_haltReason (t : Word) : (s.setPc t).haltReason = s.haltReason := rfl
@[simp] theorem setPc_insnCount (t : Word) : (s.setPc t).insnCount = s.insnCount := rfl
@[simp] theorem setPc_showInstructions (t : Word) : (s.setPc t).showInstructions = s.showInstructions := rfl
@[simp] theorem setPc_showRegisters (t : Word) : (s.setPc t).showRegisters = s.showRegisters := rfl
@[simp] theorem setPc_mem (t : Word) : (s.setPc t).mem = s.mem := rfl
@[simp] theorem setPc_diagLog (t : Word) : (s.setPc t).diagLog = s.diagLog := rfl
@[simp] theorem setPc_cfg (t : Word) : (s.setPc t).cfg = s.cfg := rfl
@[simp] theorem setPc_orderCount (t : Word) : (s.setPc t).orderCount = s.orderCount := rfl
@[simp] theorem setPc_size (t : Word) : (s.setPc t).size = s.size := rfl
@[simp] theorem setPc_readReg (t : Word) (q : Reg) : (s.setPc t).readReg q = s.readReg q := rfl
@[simp] theorem setPc_byteAt (t : Word) (x : Word) : (s.setPc t).byteAt x = s.byteAt x := rfl
@[simp] theorem setPc_memValue (t : Word) (x : Word) (k : Nat) : (s.setPc t).memValue x k = s.memValue x k := rfl

@[simp] theorem advance_regs : (s.advance).regs = s.regs := rfl
@[simp] theorem advance_pc : (s.advance).pc = s.pc + 4#32 := rfl
@[simp] theorem advance_halted : (s.advance).halted = s.halted := rfl
@[simp] theorem advance_haltReason : (s.advance).haltReason = s.haltReason := rfl
@[simp] theorem advance_insnCount : (s.advance).insnCount = s.insnCount := rfl
@[simp] theorem advance_showInstructions : (s.advance).showInstructions = s.showInstructions := rfl
@[simp] theorem advance_showRegisters : (s.advance).showRegisters = s.showRegisters := rfl
@[simp] theorem advance_mem : (s.advance).mem = s.mem := rfl
@[simp] theorem advance_diagLog : (s.advance).diagLog = s.diagLog := rfl
@[simp] theorem advance_cfg : (s.advance).cfg = s.cfg := rfl
@[simp] theorem advance_orderCount : (s.advance).orderCount = s.orderCount := rfl
@[simp] theorem advance_size : (s.advance).size = s.size := rfl
@[simp] theorem advance_readReg (q : Reg) : (s.advance).readReg q = s.readReg q := rfl
@[simp] theorem advance_byteAt (x : Word) : (s.advance).byteAt x = s.byteAt x := rfl
@[simp] theorem advance_memValue (x : Word) (k : Nat) : (s.advance).memValue x k = s.memValue x k := rfl

@[simp] theorem countTick_regs : (s.countTick).regs = s.regs := rfl
@[simp] theorem countTick_pc : (s.countTick).pc = s.pc := rfl
@[simp] theorem countTick_halted : (s.countTick).halted = s.halted := rfl
@[simp] theorem countTick_haltReason : (s.countTick).haltReason = s.haltReason := rfl
@[simp] theorem countTick_insnCount : (s.countTick).insnCount = s.insnCount + 1 := rfl
@[simp] theorem countTick_showInstructions : (s.countTick).showInstructions = s.showInstructions := rfl
@[simp] theorem countTick_showRegisters : (s.countTick).showRegisters = s.showRegisters := rfl
@[simp] theorem countTick_mem : (s.countTick).mem = s.mem := rfl
@[simp] theorem countTick_diagLog : (s.countTick).diagLog = s.diagLog := rfl
@[simp] theorem countTick_cfg : (s.countTick).cfg = s.cfg := rfl
@[simp] theorem countTick_orderCount : (s.countTick).orderCount = s.orderCount := rfl
@[simp] theorem countTick_size : (s.countTick).size = s.size := rfl
@[simp] theorem countTick_readReg (q : Reg) : (s.countTick).readReg q = s.readReg q := rfl
@[simp] theorem countTick_byteAt (x : Word) : (s.countTick).byteAt x = s.byteAt x := rfl
@[simp] theorem countTick_memValue (x : Word) (k : Nat) : (s.countTick).memValue x k = s.memValue x k := rfl

@[simp] theorem halt_regs (r : HaltReason) : (s.halt r).regs = s.regs := rfl
@[simp] theorem halt_pc (r : HaltReason) : (s.halt r).pc = s.pc := rfl
@[simp] theorem halt_halted (r : HaltReason) : (s.halt r).halted = true := rfl
@[simp] theorem halt_haltReason (r : HaltReason) : (s.halt r).haltReason = r := rfl
@[simp] theorem halt_insnCount (r : HaltReason) : (s.halt r).insnCount = s.insnCount := rfl
@[simp] theorem halt_showInstructions (r : HaltReason) : (s.halt r).showInstructions = s.showInstructions := rfl
@[simp] theorem halt_showRegisters (r : HaltReason) : (s.halt r).showRegisters = s.showRegisters := rfl
@[simp] theorem halt_mem (r : HaltReason) : (s.halt r).mem = s.mem := rfl
@[simp] theorem halt_diagLog (r : HaltReason) : (s.halt r).diagLog = s.diagLog := rfl
@[simp] theorem halt_cfg (r : HaltReason) : (s.halt r).cfg = s.cfg := rfl
@[simp] theorem halt_orderCount (r : HaltReason) : (s.halt r).orderCount = s.orderCount := rfl
@[simp] theorem halt_size (r : HaltReason) : (s.halt r).size = s.size := rfl
@[simp] theorem halt_readReg (r : HaltReason) (q : Reg) : (s.halt r).readReg q = s.readReg q := rfl
@[simp] theorem halt_byteAt (r : HaltReason) (x : Word) : (s.halt r).byteAt x = s.byteAt x := rfl
@[simp] theorem halt_memValue (r : HaltReason) (x : Word) (k : Nat) : (s.halt r).memValue x k = s.memValue x k := rfl

@[simp] theorem hartReset_regs : (s.hartReset).regs = (Vector.replicate 32 regFill).set 0 0#32 := rfl
@[simp] theorem hartReset_pc : (s.hartReset).pc = 0#32 := rfl
@[simp] theorem hartReset_halted : (s.hartReset).halted = false := rfl
@[simp] theorem hartReset_haltReason : (s.hartReset).haltReason = .none := rfl
@[simp] theorem hartReset_insnCount : (s.hartReset).insnCount = 0 := rfl
@[simp] theorem hartReset_showInstructions : (s.hartReset).showInstructions = s.showInstructions := rfl
@[simp] theorem hartReset_showRegisters : (s.hartReset).showRegisters = s.showRegisters := rfl
@[simp] theorem hartReset_mem : (s.hartReset).mem = s.mem := rfl
@[simp] theorem hartReset_diagLog : (s.hartReset).diagLog = s.diagLog := rfl
@[simp] theorem hartReset_cfg : (s.hartReset).cfg = s.cfg := rfl
@[simp] theorem hartReset_orderCount : (s.hartReset).orderCount = s.orderCount := rfl
@[simp] theorem hartReset_size : (s.hartReset).size = s.size := rfl
@[simp] theorem hartReset_byteAt (x : Word) : (s.hartReset).byteAt x = s.byteAt x := rfl
@[simp] theorem hartReset_memValue (x : Word) (k : Nat) : (s.hartReset).memValue x k = s.memValue x k := rfl

@[simp] theorem setTrace_regs (i r : Bool) : (s.setTrace i r).regs = s.regs := rfl
@[simp] theorem setTrace_pc (i r : Bool) : (s.setTrace i r).pc = s.pc := rfl
@[simp] theorem setTrace_halted (i r : Bool) : (s.setTrace i r).halted = s.halted := rfl
@[simp] theorem setTrace_haltReason (i r : Bool) : (s.setTrace i r).haltReason = s.haltReason := rfl
@[simp] theorem setTrace_insnCount (i r : Bool) : (s.setTrace i r).insnCount = s.insnCount := rfl
@[simp] theorem setTrace_showInstructions (i r : Bool) : (s.setTrace i r).showInstructions = i := rfl
@[simp] theorem setTrace_showRegisters (i r : Bool) : (s.setTrace i r).showRegisters = r := rfl
@[simp] theorem setTrace_mem (i r : Bool) : (s.setTrace i r).mem = s.mem := rfl
@[simp] theorem setTrace_diagLog (i r : Bool) : (s.setTrace i r).diagLog = s.diagLog := rfl
@[simp] theorem setTrace_cfg (i r : Bool) : (s.setTrace i r).cfg = s.cfg := rfl
@[simp] theorem setTrace_orderCount (i r : Bool) : (s.setTrace i r).orderCount = s.orderCount := rfl
@[simp] theorem setTrace_size (i r : Bool) : (s.setTrace i r).size = s.size := rfl
@[simp] theorem setTrace_readReg (i r : Bool) (q : Reg) : (s.setTrace i r).readReg q = s.readReg q := rfl
@[simp] theorem setTrace_byteAt (i r : Bool) (x : Word) : (s.setTrace i r).byteAt x = s.byteAt x := rfl
@[simp] theorem setTrace_memValue (i r : Bool) (x : Word) (k : Nat) : (s.setTrace i r).memValue x k = s.memValue x k := rfl

@[simp] theorem warn_regs (as : List Word) : (s.warn as).regs = s.regs := rfl
@[simp] theorem warn_pc (as : List Word) : (s.warn as).pc = s.pc := rfl
@[simp] theorem warn_halted (as : List Word) : (s.warn as).halted = s.halted := rfl
@[simp] theorem warn_haltReason (as : List Word) : (s.warn as).haltReason = s.haltReason := rfl
@[simp] theorem warn_insnCount (as : List Word) : (s.warn as).insnCount = s.insnCount := rfl
@[simp] theorem warn_showInstructions (as : List Word) : (s.warn as).showInstructions = s.showInstructions := rfl
@[simp] theorem warn_showRegisters (as : List Word) : (s.warn as).showRegisters = s.showRegisters := rfl
@[simp] theorem warn_mem (as : List Word) : (s.warn as).mem = s.mem := rfl
@[simp] theorem warn_diagLog (as : List Word) : (s.warn as).diagLog = s.diagLog ++ arrangeWarnings s.orderCount as := rfl
@[simp] theorem warn_cfg (as : List Word) : (s.warn as).cfg = s.cfg := rfl
@[simp] theorem warn_orderCount (as : List Word) : (s.warn as).orderCount = s.orderCount + as.length := rfl
@[simp] theorem warn_size (as : List Word) : (s.warn as).size = s.size := rfl
@[simp] theorem warn_readReg (as : List Word) (q : Reg) : (s.warn as).readReg q = s.readReg q := rfl
@[simp] theorem warn_byteAt (as : List Word) (x : Word) : (s.warn as).byteAt x = s.byteAt x := rfl
@[simp] theorem warn_memValue (as : List Word) (x : Word) (k : Nat) : (s.warn as).memValue x k = s.memValue x k := rfl

@[simp] theorem afterRead_regs (a : Word) (n : Nat) : (s.afterRead a n).regs = s.regs := rfl
@[simp] theorem afterRead_pc (a : Word) (n : Nat) : (s.afterRead a n).pc = s.pc := rfl
@[simp] theorem afterRead_halted (a : Word) (n : Nat) : (s.afterRead a n).halted = s.halted := rfl
@[simp] theorem afterRead_haltReason (a : Word) (n : Nat) : (s.afterRead a n).haltReason = s.haltReason := rfl
@[simp] theorem afterRead_insnCount (a : Word) (n : Nat) : (s.afterRead a n).insnCount = s.insnCount := rfl
@[simp] theorem afterRead_showInstructions (a : Word) (n : Nat) : (s.afterRead a n).showInstructions = s.showInstructions := rfl
@[simp] theorem afterRead_showRegisters (a : Word) (n : Nat) : (s.afterRead a n).showRegisters = s.showRegisters := rfl
@[simp] theorem afterRead_mem (a : Word) (n : Nat) : (s.afterRead a n).mem = s.mem := rfl
@[simp] theorem afterRead_diagLog (a : Word) (n : Nat) : (s.afterRead a n).diagLog = s.diagLog ++ arrangeWarnings s.orderCount (illegalAddrs s.size a n) := rfl
@[simp] theorem afterRead_cfg (a : Word) (n : Nat) : (s.afterRead a n).cfg = s.cfg := rfl
@[simp] theorem afterRead_orderCount (a : Word) (n : Nat) : (s.afterRead a n).orderCount = s.orderCount + (illegalAddrs s.size a n).length := rfl
@[simp] theorem afterRead_size (a : Word) (n : Nat) : (s.afterRead a n).size = s.size := rfl
@[simp] theorem afterRead_readReg (a : Word) (n : Nat) (q : Reg) : (s.afterRead a n).readReg q = s.readReg q := rfl
@[simp] theorem afterRead_byteAt (a : Word) (n : Nat) (x : Word) : (s.afterRead a n).byteAt x = s.byteAt x := rfl
@[simp] theorem afterRead_memValue (a : Word) (n : Nat) (x : Word) (k : Nat) : (s.afterRead a n).memValue x k = s.memValue x k := rfl

@[simp] theorem memWrite_regs (a : Word) (n : Nat) (v : Word) : (s.memWrite a n v).regs = s.regs := rfl
@[simp] theorem memWrite_pc (a : Word) (n : Nat) (v : Word) : (s.memWrite a n v).pc = s.pc := rfl
@[simp] theorem memWrite_halted (a : Word) (n : Nat) (v : Word) : (s.memWrite a n v).halted = s.halted := rfl
@[simp] theorem memWrite_haltReason (a : Word) (n : Nat) (v : Word) : (s.memWrite a n v).haltReason = s.haltReason := rfl
@[simp] theorem memWrite_insnCount (a : Word) (n : Nat) (v : Word) : (s.memWrite a n v).insnCount = s.insnCount := rfl
@[simp] theorem memWrite_showInstructions (a : Word) (n : Nat) (v : Word) : (s.memWrite a n v).showInstructions = s.showInstructions := rfl
@[simp] theorem memWrite_showRegisters (a : Word) (n : Nat) (v : Word) : (s.memWrite a n v).showRegisters = s.showRegisters := rfl
@[simp] theorem memWrite_mem (a : Word) (n : Nat) (v : Word) : (s.memWrite a n v).mem = writeBytes s.size a v n s.mem := rfl
@[simp] theorem memWrite_diagLog (a : Word) (n : Nat) (v : Word) : (s.memWrite a n v).diagLog = s.diagLog ++ arrangeWarnings s.orderCount (illegalAddrs s.size a n) := rfl
@[simp] theorem memWrite_cfg (a : Word) (n : Nat) (v : Word) : (s.memWrite a n v).cfg = s.cfg := rfl
@[simp] theorem memWrite_orderCount (a : Word) (n : Nat) (v : Word) : (s.memWrite a n v).orderCount = s.orderCount + (illegalAddrs s.size a n).length := rfl
@[simp] theorem memWrite_size (a : Word) (n : Nat) (v : Word) : (s.memWrite a n v).size = s.size := rfl
@[simp] theorem memWrite_readReg (a : Word) (n : Nat) (v : Word) (q : Reg) : (s.memWrite a n v).readReg q = s.readReg q := rfl

@[simp] theorem writeReg_pc (rd : Reg) (v : Word) : (s.writeReg rd v).pc = s.pc := by
  unfold State.writeReg; split <;> rfl
@[simp] theorem writeReg_halted (rd : Reg) (v : Word) : (s.writeReg rd v).halted = s.halted := by
  unfold State.writeReg; split <;> rfl
@[simp] theorem writeReg_haltReason (rd : Reg) (v : Word) : (s.writeReg rd v).haltReason = s.haltReason := by
  unfold State.writeReg; split <;> rfl
@[simp] theorem writeReg_insnCount (rd : Reg) (v : Word) : (s.writeReg rd v).insnCount = s.insnCount := by
  unfold State.writeReg; split <;> rfl
@[simp] theorem writeReg_showInstructions (rd : Reg) (v : Word) : (s.writeReg rd v).showInstructions = s.showInstructions := by
  unfold State.writeReg; split <;> rfl
@[simp] theorem writeReg_showRegisters (rd : Reg) (v : Word) : (s.writeReg rd v).showRegisters = s.showRegisters := by
  unfold State.writeReg; split <;> rfl
@[simp] theorem writeReg_mem (rd : Reg) (v : Word) : (s.writeReg rd v).mem = s.mem := by
  unfold State.writeReg; split <;> rfl
@[simp] theorem writeReg_diagLog (rd : Reg) (v : Word) : (s.writeReg rd v).diagLog = s.diagLog := by
  unfold State.writeReg; split <;> rfl
@[simp] theorem writeReg_cfg (rd : Reg) (v : Word) : (s.writeReg rd v).cfg = s.cfg := by
  unfold State.writeReg; split <;> rfl
@[simp] theorem writeReg_orderCount (rd : Reg) (v : Word) : (s.writeReg rd v).orderCount = s.orderCount := by
  unfold State.writeReg; split <;> rfl
@[simp] theorem writeReg_size (rd : Reg) (v : Word) : (s.writeReg rd v).size = s.size := by
  simp [State.size]
@[simp] theorem writeReg_byteAt (rd : Reg) (v x : Word) : (s.writeReg rd v).byteAt x = s.byteAt x := by
  simp [State.byteAt]

/-- x0 reads 0 (R11). -/
@[simp] theorem readReg_zero : s.readReg 0 = 0#32 := rfl

/-- A write to x0 is discarded (R12). -/
@[simp] theorem writeReg_zero (v : Word) : s.writeReg 0 v = s := rfl

/-- What every register reads after a register write (R11, R12). -/
theorem writeReg_readReg (rd r : Reg) (v : Word) :
    (s.writeReg rd v).readReg r = if r = 0 then 0#32 else if r = rd then v else s.readReg r := by
  by_cases hr : r = 0
  · simp [hr]
  by_cases hd : rd = 0
  · simp [hd, hr]
  have : (r = rd) ↔ (rd.val = r.val) := by rw [Fin.ext_iff]; exact eq_comm
  simp only [State.writeReg, State.readReg, hr, hd, if_false, Vector.getElem_set, this]

/-- The slot of x0 is never written (R12). -/
theorem writeReg_zeroSlot (rd : Reg) (v : Word) : (s.writeReg rd v).regs[0] = s.regs[0] := by
  unfold State.writeReg
  split
  · rfl
  · rename_i h
    have h' : rd.val ≠ 0 := fun e => h (Fin.ext e)
    simp [h']

/-- What `writeBack` does: the register write and the pc's advance. -/
theorem writeBack_eq (rd : Reg) (v : Word) : s.writeBack rd v = (s.writeReg rd v).setPc (s.pc + 4#32) := by
  simp [State.writeBack, State.advance]

end Sys2Proof.Machine
end

