-- ==== Sys2Proof/Laws/Exec.lean ====
section
/-! SUPPORT. What executing an instruction can do, said once: one equation per instruction, and the three shapes of effect. -/

namespace Sys2Proof.Machine

variable (s : State)

/-- Logging no warning changes nothing. -/
@[simp] theorem warn_nil : s.warn [] = s := by
  simp [State.warn, arrangeWarnings]

/-! ## One equation per instruction -/

theorem exec_lui (rd : Reg) (imm20 : BitVec 20) :
    exec (.lui rd imm20) s = .next (s.writeBack rd (immUpper imm20)) := rfl
theorem exec_auipc (rd : Reg) (imm20 : BitVec 20) :
    exec (.auipc rd imm20) s = .next (s.writeBack rd (s.pc + immUpper imm20)) := rfl
theorem exec_jal (rd : Reg) (off : BitVec 21) :
    exec (.jal rd off) s = .next (s.linkJump rd (s.jumpTarget off)) := rfl
theorem exec_jalr (rd rs1 : Reg) (imm : BitVec 12) :
    exec (.jalr rd rs1 imm) s = .next (s.linkJump rd (s.jalrTarget rs1 imm)) := rfl
theorem exec_beq (rs1 rs2 : Reg) (off : BitVec 13) :
    exec (.beq rs1 rs2 off) s = .next (s.branch (decide (s.readReg rs1 = s.readReg rs2)) (s.branchTarget off)) := rfl
theorem exec_bne (rs1 rs2 : Reg) (off : BitVec 13) :
    exec (.bne rs1 rs2 off) s = .next (s.branch (decide (s.readReg rs1 ≠ s.readReg rs2)) (s.branchTarget off)) := rfl
theorem exec_blt (rs1 rs2 : Reg) (off : BitVec 13) :
    exec (.blt rs1 rs2 off) s = .next (s.branch (lessSigned (s.readReg rs1) (s.readReg rs2)) (s.branchTarget off)) := rfl
theorem exec_bge (rs1 rs2 : Reg) (off : BitVec 13) :
    exec (.bge rs1 rs2 off) s = .next (s.branch (!lessSigned (s.readReg rs1) (s.readReg rs2)) (s.branchTarget off)) := rfl
theorem exec_bltu (rs1 rs2 : Reg) (off : BitVec 13) :
    exec (.bltu rs1 rs2 off) s = .next (s.branch (lessUnsigned (s.readReg rs1) (s.readReg rs2)) (s.branchTarget off)) := rfl
theorem exec_bgeu (rs1 rs2 : Reg) (off : BitVec 13) :
    exec (.bgeu rs1 rs2 off) s = .next (s.branch (!lessUnsigned (s.readReg rs1) (s.readReg rs2)) (s.branchTarget off)) := rfl
theorem exec_lb (rd rs1 : Reg) (imm : BitVec 12) :
    exec (.lb rd rs1 imm) s = .next (s.loadTo rd (s.effAddr rs1 imm) 1 sext8) := rfl
theorem exec_lh (rd rs1 : Reg) (imm : BitVec 12) :
    exec (.lh rd rs1 imm) s = .next (s.loadTo rd (s.effAddr rs1 imm) 2 sext16) := rfl
theorem exec_lw (rd rs1 : Reg) (imm : BitVec 12) :
    exec (.lw rd rs1 imm) s = .next (s.loadTo rd (s.effAddr rs1 imm) 4 id) := rfl
theorem exec_lbu (rd rs1 : Reg) (imm : BitVec 12) :
    exec (.lbu rd rs1 imm) s = .next (s.loadTo rd (s.effAddr rs1 imm) 1 zext8) := rfl
theorem exec_lhu (rd rs1 : Reg) (imm : BitVec 12) :
    exec (.lhu rd rs1 imm) s = .next (s.loadTo rd (s.effAddr rs1 imm) 2 zext16) := rfl
theorem exec_sb (rs1 rs2 : Reg) (imm : BitVec 12) :
    exec (.sb rs1 rs2 imm) s = .next (s.storeFrom (s.effAddr rs1 imm) 1 (s.readReg rs2)) := rfl
theorem exec_sh (rs1 rs2 : Reg) (imm : BitVec 12) :
    exec (.sh rs1 rs2 imm) s = .next (s.storeFrom (s.effAddr rs1 imm) 2 (s.readReg rs2)) := rfl
theorem exec_sw (rs1 rs2 : Reg) (imm : BitVec 12) :
    exec (.sw rs1 rs2 imm) s = .next (s.storeFrom (s.effAddr rs1 imm) 4 (s.readReg rs2)) := rfl
theorem exec_addi (rd rs1 : Reg) (imm : BitVec 12) :
    exec (.addi rd rs1 imm) s = .next (s.writeBack rd (s.readReg rs1 + imm12 imm)) := rfl
theorem exec_slti (rd rs1 : Reg) (imm : BitVec 12) :
    exec (.slti rd rs1 imm) s = .next (s.writeBack rd (boolWord (lessSigned (s.readReg rs1) (imm12 imm)))) := rfl
theorem exec_sltiu (rd rs1 : Reg) (imm : BitVec 12) :
    exec (.sltiu rd rs1 imm) s = .next (s.writeBack rd (boolWord (lessUnsigned (s.readReg rs1) (imm12 imm)))) := rfl
theorem exec_xori (rd rs1 : Reg) (imm : BitVec 12) :
    exec (.xori rd rs1 imm) s = .next (s.writeBack rd (s.readReg rs1 ^^^ imm12 imm)) := rfl
theorem exec_ori (rd rs1 : Reg) (imm : BitVec 12) :
    exec (.ori rd rs1 imm) s = .next (s.writeBack rd (s.readReg rs1 ||| imm12 imm)) := rfl
theorem exec_andi (rd rs1 : Reg) (imm : BitVec 12) :
    exec (.andi rd rs1 imm) s = .next (s.writeBack rd (s.readReg rs1 &&& imm12 imm)) := rfl
theorem exec_slli (rd rs1 : Reg) (shamt : BitVec 5) :
    exec (.slli rd rs1 shamt) s = .next (s.writeBack rd (shiftLeft (s.readReg rs1) shamt.toNat)) := rfl
theorem exec_srli (rd rs1 : Reg) (shamt : BitVec 5) :
    exec (.srli rd rs1 shamt) s = .next (s.writeBack rd (shiftRightLogical (s.readReg rs1) shamt.toNat)) := rfl
theorem exec_srai (rd rs1 : Reg) (shamt : BitVec 5) :
    exec (.srai rd rs1 shamt) s = .next (s.writeBack rd (shiftRightArith (s.readReg rs1) shamt.toNat)) := rfl
theorem exec_add (rd rs1 rs2 : Reg) :
    exec (.add rd rs1 rs2) s = .next (s.writeBack rd (s.readReg rs1 + s.readReg rs2)) := rfl
theorem exec_sub (rd rs1 rs2 : Reg) :
    exec (.sub rd rs1 rs2) s = .next (s.writeBack rd (s.readReg rs1 - s.readReg rs2)) := rfl
theorem exec_sll (rd rs1 rs2 : Reg) :
    exec (.sll rd rs1 rs2) s = .next (s.writeBack rd (shiftLeft (s.readReg rs1) (shiftAmount (s.readReg rs2)))) := rfl
theorem exec_slt (rd rs1 rs2 : Reg) :
    exec (.slt rd rs1 rs2) s = .next (s.writeBack rd (boolWord (lessSigned (s.readReg rs1) (s.readReg rs2)))) := rfl
theorem exec_sltu (rd rs1 rs2 : Reg) :
    exec (.sltu rd rs1 rs2) s = .next (s.writeBack rd (boolWord (lessUnsigned (s.readReg rs1) (s.readReg rs2)))) := rfl
theorem exec_xor (rd rs1 rs2 : Reg) :
    exec (.xor rd rs1 rs2) s = .next (s.writeBack rd (s.readReg rs1 ^^^ s.readReg rs2)) := rfl
theorem exec_srl (rd rs1 rs2 : Reg) :
    exec (.srl rd rs1 rs2) s = .next (s.writeBack rd (shiftRightLogical (s.readReg rs1) (shiftAmount (s.readReg rs2)))) := rfl
theorem exec_sra (rd rs1 rs2 : Reg) :
    exec (.sra rd rs1 rs2) s = .next (s.writeBack rd (shiftRightArith (s.readReg rs1) (shiftAmount (s.readReg rs2)))) := rfl
theorem exec_or (rd rs1 rs2 : Reg) :
    exec (.or rd rs1 rs2) s = .next (s.writeBack rd (s.readReg rs1 ||| s.readReg rs2)) := rfl
theorem exec_and (rd rs1 rs2 : Reg) :
    exec (.and rd rs1 rs2) s = .next (s.writeBack rd (s.readReg rs1 &&& s.readReg rs2)) := rfl
theorem exec_fence_nop (fm pred succ : BitVec 4) (rs1 rd : Reg) (h : s.cfg.fenceMode = .nop) :
    exec (.fence fm pred succ rs1 rd) s = .next s.advance := by
  simp [exec, execFence, h]
theorem exec_fence_illegal (fm pred succ : BitVec 4) (rs1 rd : Reg) (h : s.cfg.fenceMode = .illegal) :
    exec (.fence fm pred succ rs1 rd) s = .next (s.halt .illegalInstruction) := by
  simp [exec, execFence, h]
theorem exec_ecall :
    exec (.ecall) s = .next (s.halt .ecall) := rfl
theorem exec_ebreak :
    exec (.ebreak) s = .next (s.halt .ebreak) := rfl
theorem exec_csrrw (rd : Reg) (csr : BitVec 12) (rs1 : Reg) :
    exec (.csrrw rd csr rs1) s = .next s.advance := rfl
theorem exec_csrrs (rd : Reg) (csr : BitVec 12) (rs1 : Reg) :
    exec (.csrrs rd csr rs1) s = .next s.advance := rfl
theorem exec_csrrc (rd : Reg) (csr : BitVec 12) (rs1 : Reg) :
    exec (.csrrc rd csr rs1) s = .next s.advance := rfl
theorem exec_csrrwi (rd : Reg) (csr : BitVec 12) (uimm : BitVec 5) :
    exec (.csrrwi rd csr uimm) s = .next s.advance := rfl
theorem exec_csrrsi (rd : Reg) (csr : BitVec 12) (uimm : BitVec 5) :
    exec (.csrrsi rd csr uimm) s = .next s.advance := rfl
theorem exec_csrrci (rd : Reg) (csr : BitVec 12) (uimm : BitVec 5) :
    exec (.csrrci rd csr uimm) s = .next s.advance := rfl

/-! ## The shapes of effect -/

/-- What an instruction makes of a state: warnings of one read, at most one register written and a new pc; or one store and the
pc's advance; or a halt. -/
inductive Effect (s : State) : State → Prop where
  | register (as : List Word) (rd : Reg) (v p : Word) (h : ∀ a ∈ as, legalAddr s.size a = false) :
      Effect s (((s.warn as).writeReg rd v).setPc p)
  | store (a : Word) (n : Nat) (v : Word) : Effect s ((s.memWrite a n v).advance)
  | halt (r : HaltReason) (h : r ≠ .none) (h' : r ≠ .pcAlignment) : Effect s (s.halt r)

theorem effect_writeBack (rd : Reg) (v : Word) : Effect s (s.writeBack rd v) := by
  have := Effect.register (s := s) [] rd v (s.pc + 4#32) (by simp)
  rwa [warn_nil, ← writeBack_eq] at this

theorem effect_setPc (p : Word) : Effect s (s.setPc p) := by
  simpa using Effect.register (s := s) [] 0 0#32 p (by simp)

theorem effect_branch (c : Bool) (t : Word) : Effect s (s.branch c t) := by
  unfold State.branch; split <;> exact effect_setPc ..

theorem effect_linkJump (rd : Reg) (t : Word) : Effect s (s.linkJump rd t) := by
  have := Effect.register (s := s) [] rd (s.pc + 4#32) t (by simp)
  rwa [warn_nil] at this

theorem effect_loadTo (rd : Reg) (a : Word) (n : Nat) (ext : Word → Word) : Effect s (s.loadTo rd a n ext) := by
  have := Effect.register (s := s) (illegalAddrs s.size a n) rd (ext (s.memValue a n)) (s.pc + 4#32)
    (fun x hx => illegalAddrs_illegal hx)
  rw [State.loadTo, writeBack_eq]
  exact this

theorem effect_fence (fm pred succ : BitVec 4) (rs1 rd : Reg) :
    ∃ t, exec (.fence fm pred succ rs1 rd) s = .next t ∧ Effect s t := by
  cases h : s.cfg.fenceMode with
  | illegal => exact ⟨_, exec_fence_illegal s _ _ _ _ _ h, .halt _ (by decide) (by decide)⟩
  | nop => exact ⟨_, exec_fence_nop s _ _ _ _ _ h, effect_setPc ..⟩

/-- Every instruction answers a next state, of one of the shapes above. -/
theorem exec_effect (i : Instr) : ∃ t, exec i s = .next t ∧ Effect s t := by
  cases i with
  | fence fm pred succ rs1 rd => exact effect_fence ..
  | ecall => exact ⟨_, rfl, .halt _ (by decide) (by decide)⟩
  | ebreak => exact ⟨_, rfl, .halt _ (by decide) (by decide)⟩
  | jal | jalr => exact ⟨_, rfl, effect_linkJump ..⟩
  | beq | bne | blt | bge | bltu | bgeu => exact ⟨_, rfl, effect_branch ..⟩
  | lb | lh | lw | lbu | lhu => exact ⟨_, rfl, effect_loadTo ..⟩
  | sb | sh | sw => exact ⟨_, rfl, .store ..⟩
  | csrrw | csrrs | csrrc | csrrwi | csrrsi | csrrci => exact ⟨_, rfl, effect_setPc ..⟩
  | lui | auipc | addi | slti | sltiu | xori | ori | andi | slli | srli | srai => exact ⟨_, rfl, effect_writeBack ..⟩
  | add | sub | sll | slt | sltu | xor | srl | sra | or | and => exact ⟨_, rfl, effect_writeBack ..⟩

variable {s} in
theorem effect_of_exec {t : State} {i : Instr} (h : exec i s = .next t) : Effect s t := by
  obtain ⟨u, hu, he⟩ := exec_effect s i
  rw [h] at hu
  cases hu
  exact he

end Sys2Proof.Machine
end

