-- ==== Sys2Proof/Laws/Operands.lean ====
section
/-! SUPPORT. The operand forms as arithmetic on numbers: extensions, sums modulo 2^32, shifts, and the value of a memory read. -/

namespace Sys2Proof.Machine

/-! ## Immediates and sums -/

theorem imm12_toInt (imm : BitVec 12) : (imm12 imm).toInt = imm.toInt := BitVec.toInt_signExtend_of_le (by omega)
theorem immBranch_toInt (off : BitVec 13) : (immBranch off).toInt = off.toInt := BitVec.toInt_signExtend_of_le (by omega)
theorem immJump_toInt (off : BitVec 21) : (immJump off).toInt = off.toInt := BitVec.toInt_signExtend_of_le (by omega)

theorem immUpper_toNat (imm20 : BitVec 20) : (immUpper imm20).toNat = imm20.toNat * 4096 := by
  have := imm20.isLt
  simp only [immUpper, place, BitVec.toNat_shiftLeft, BitVec.toNat_setWidth, Nat.shiftLeft_eq]
  omega

/-- Bit `k` of a sign-extended 12-bit immediate. -/
theorem imm12_bit (imm : BitVec 12) (k : Nat) (h : k < 32) : (imm12 imm).getLsbD k = imm.getLsbD (min k 11) := by
  rw [imm12, BitVec.getLsbD_signExtend]
  by_cases h' : k < 12
  · simp [h, h', show min k 11 = k by omega]
  · simp [h, h', show min k 11 = 11 by omega, BitVec.msb_eq_getLsbD_last]

/-- A sum of words, the second read as a signed number. -/
theorem toNat_add_signed (a b : Word) : ((a + b).toNat : Int) = (a.toNat + b.toInt) % 2 ^ 32 := by
  rw [BitVec.toNat_add, BitVec.toInt_eq_toNat_bmod]
  have := a.isLt
  have := b.isLt
  simp only [Int.bmod]
  push_cast
  split <;> omega

theorem toNat_eq_toInt_emod (b : Word) : (b.toNat : Int) = b.toInt % 2 ^ 32 := by
  simpa using toNat_add_signed 0#32 b

theorem effAddr_toNat (s : State) (rs1 : Reg) (imm : BitVec 12) :
    ((s.effAddr rs1 imm).toNat : Int) = ((s.readReg rs1).toNat + imm.toInt) % 2 ^ 32 := by
  rw [State.effAddr, toNat_add_signed, imm12_toInt]

/-- Clearing bit 0 (R151). -/
theorem clearBit0_toNat (x : Word) : (x &&& 0xFFFFFFFE#32).toNat = x.toNat / 2 * 2 := by
  have e : x &&& 0xFFFFFFFE#32 = (x >>> 1) <<< 1 := by
    apply BitVec.eq_of_getLsbD_eq
    intro i hi
    simp only [BitVec.getLsbD_and, BitVec.getLsbD_shiftLeft, BitVec.getLsbD_ushiftRight]
    interval_cases i <;> simp
  have := x.isLt
  rw [e]
  simp only [BitVec.toNat_shiftLeft, BitVec.toNat_ushiftRight, Nat.shiftLeft_eq, Nat.shiftRight_eq_div_pow]
  omega

/-! ## Shifts -/

theorem shiftAmount_eq (b : Word) : shiftAmount b = b.toNat % 32 := by
  simp [shiftAmount, BitVec.extractLsb'_toNat]

theorem shiftLeft_toNat (a : Word) (n : Nat) : (shiftLeft a n).toNat = a.toNat * 2 ^ n % 2 ^ 32 := by
  simp [shiftLeft, Nat.shiftLeft_eq]

theorem shiftRightLogical_toNat (a : Word) (n : Nat) : (shiftRightLogical a n).toNat = a.toNat / 2 ^ n := by
  simp [shiftRightLogical, Nat.shiftRight_eq_div_pow]

theorem shiftRightArith_toInt (a : Word) (n : Nat) : (shiftRightArith a n).toInt = Int.fdiv a.toInt (2 ^ n) := by
  rw [shiftRightArith, BitVec.toInt_sshiftRight, Int.shiftRight_eq_div_pow, Int.fdiv_eq_ediv_of_nonneg]
  · norm_cast
  · positivity

/-! ## The value of a memory read (R35) -/

theorem memValue_succ (s : State) (a : Word) (n : Nat) :
    s.memValue a (n + 1) = s.memValue a n ||| (s.byteAt (a + BitVec.ofNat 32 n)).setWidth 32 <<< (8 * n) := rfl

theorem memValue_one (s : State) (a : Word) : s.memValue a 1 = (s.byteAt a).setWidth 32 := by
  show 0#32 ||| (s.byteAt (a + 0#32)).setWidth 32 <<< (8 * 0) = _
  simp

theorem or_byte_toNat (x : Word) (b : Byte) (n : Nat) (hn : n < 4) (hx : x.toNat < 2 ^ (8 * n)) :
    (x ||| b.setWidth 32 <<< (8 * n)).toNat = b.toNat * 2 ^ (8 * n) + x.toNat := by
  have hb := b.isLt
  have e : (b.setWidth 32 <<< (8 * n) : Word).toNat = b.toNat <<< (8 * n) := by
    rw [BitVec.toNat_shiftLeft, BitVec.toNat_setWidth, Nat.mod_eq_of_lt (by omega : b.toNat < 2 ^ 32), Nat.mod_eq_of_lt]
    rw [Nat.shiftLeft_eq]
    interval_cases n <;> omega
  rw [BitVec.toNat_or, e, Nat.or_comm, ← Nat.shiftLeft_add_eq_or_of_lt hx, Nat.shiftLeft_eq]

/-- A word read by its bytes, for 1, 2 and 4 of them. -/
theorem memValue_toNat (s : State) (a : Word) :
    (s.memValue a 1).toNat = (s.byteAt (a + 0#32)).toNat ∧
    (s.memValue a 2).toNat = (s.byteAt (a + 1#32)).toNat * 2 ^ 8 + (s.byteAt (a + 0#32)).toNat ∧
    (s.memValue a 4).toNat = (s.byteAt (a + 3#32)).toNat * 2 ^ 24 + (s.byteAt (a + 2#32)).toNat * 2 ^ 16 +
      (s.byteAt (a + 1#32)).toNat * 2 ^ 8 + (s.byteAt (a + 0#32)).toNat := by
  have b0 := (s.byteAt (a + 0#32)).isLt
  have b1 := (s.byteAt (a + 1#32)).isLt
  have b2 := (s.byteAt (a + 2#32)).isLt
  have b3 := (s.byteAt (a + 3#32)).isLt
  have h0 : (s.memValue a 0).toNat = 0 := rfl
  have h1 : (s.memValue a 1).toNat = (s.byteAt (a + 0#32)).toNat := by
    rw [memValue_succ, or_byte_toNat _ _ _ (by omega) (by omega), h0]
    simp
  have h2 : (s.memValue a 2).toNat = (s.byteAt (a + 1#32)).toNat * 2 ^ 8 + (s.byteAt (a + 0#32)).toNat := by
    rw [memValue_succ, or_byte_toNat _ _ _ (by omega) (by omega), h1]
  have h3 : (s.memValue a 3).toNat = (s.byteAt (a + 2#32)).toNat * 2 ^ 16 + ((s.byteAt (a + 1#32)).toNat * 2 ^ 8 +
      (s.byteAt (a + 0#32)).toNat) := by
    rw [memValue_succ, or_byte_toNat _ _ _ (by omega) (by omega), h2]
  refine ⟨h1, h2, ?_⟩
  rw [memValue_succ, or_byte_toNat _ _ _ (by omega) (by omega), h3]
  show _ * 2 ^ 24 + _ = _
  omega

/-- What a read of the bytes just written gives, when all of them are legal. -/
theorem memValue_memWrite_word {s : State} (hm : s.mem.wf) (a v : Word)
    (hl : ∀ i, i < 4 → legalAddr s.size (a + BitVec.ofNat 32 i) = true) : readBytes s.size (writeBytes s.size a v 4 s.mem) a 4 = v := by
  apply BitVec.eq_of_getLsbD_eq
  intro k hk
  rw [readBytes_bit _ _ _ _ _ (by omega), read8_writeBytes hm _ _ _ _ (by omega) (by omega), if_pos (hl _ (by omega))]
  have e : 8 * (k / 8) + k % 8 = k := by omega
  have e2 : k % 8 < 8 := by omega
  simp [hk, e, e2]

/-- Byte `k` of a word read is the byte at that address. -/
theorem memValue_byte (s : State) (a : Word) (k : Nat) (hk : k < 4) :
    (s.memValue a 4).extractLsb' (8 * k) 8 = s.byteAt (a + BitVec.ofNat 32 k) := by
  apply BitVec.eq_of_getLsbD_eq
  intro i hi
  rw [BitVec.getLsbD_extractLsb', State.memValue, readBytes_bit _ _ _ _ _ (by omega)]
  have e : (8 * k + i) / 8 = k := by omega
  have e2 : (8 * k + i) % 8 = i := by omega
  have e3 : 8 * k + i < 32 := by omega
  simp [e, e2, e3, hi, State.byteAt]

/-! ## One byte -/

theorem illegalAddrs_one (size : Nat) (a : Word) : illegalAddrs size a 1 = if legalAddr size a then [] else [a] := by
  by_cases h : legalAddr size a = true <;> simp [illegalAddrs, accessAddrs, List.range, List.range.loop, h]

theorem writeBytes_one (size : Nat) (a v : Word) (m : Memory) :
    writeBytes size a v 1 m = write8 size m a (v.extractLsb' 0 8) := by
  show write8 _ _ (a + 0#32) _ = _
  simp [writeBytes]

/-! ## Image placement (R203) -/

theorem getByte_placeBytes {m : Memory} (hm : m.wf) (bs : List Byte) (a x : Nat) :
    (placeBytes a bs m).getByte x = if a ≤ x ∧ x < a + bs.length then (bs[x - a]?).getD memFill else m.getByte x := by
  induction bs generalizing a m with
  | nil => simp [placeBytes]
  | cons b bs ih =>
    rw [placeBytes, ih (setByte_wf hm ..), getByte_setByte hm]
    by_cases h1 : x = a
    · subst h1
      simp
    · by_cases h2 : a + 1 ≤ x ∧ x < a + 1 + bs.length
      · have e : x - a = (x - (a + 1)) + 1 := by omega
        rw [if_pos h2, if_pos (by simp; omega), e]
        simp
      · rw [if_neg h2, if_neg h1, if_neg (by simp; omega)]

end Sys2Proof.Machine
end

