-- ==== Sys2Proof/Laws/Step.lean ====
section
/-! SUPPORT. What one step can do, said once, and what the decoder's answers are. -/

namespace Sys2Proof.Machine

/-- The four cases of a tick (R180). -/
theorem step_cases (s : State) :
    (s.halted = true ∧ step s = .next s) ∨
    (s.halted = false ∧ pcAligned s.pc = false ∧ step s = .next (s.countTick.halt .pcAlignment)) ∨
    (s.halted = false ∧ pcAligned s.pc = true ∧ ∃ i, s.fetched = .instr i ∧ step s = exec i s.afterFetch) ∨
    (s.halted = false ∧ pcAligned s.pc = true ∧ ∃ why, s.fetched = .illegal why ∧
      step s = .next (s.afterFetch.halt .illegalInstruction)) := by
  unfold step
  by_cases hh : s.halted = true
  · simp [hh]
  · by_cases hp : pcAligned s.pc = true
    · cases hf : s.fetched <;> simp [hh, hp]
    · simp [hh, hp]

theorem step_halted {s : State} (h : s.halted = true) : step s = .next s := by
  simp [step, h]

theorem step_misaligned {s : State} (h : s.halted = false) (hp : pcAligned s.pc = false) :
    step s = .next (s.countTick.halt .pcAlignment) := by
  simp [step, h, hp]

theorem step_instr {s : State} {i : Instr} (h : s.halted = false) (hp : pcAligned s.pc = true) (hf : s.fetched = .instr i) :
    step s = exec i s.afterFetch := by
  simp [step, h, hp, hf]

theorem step_illegal {s : State} {why : Reject} (h : s.halted = false) (hp : pcAligned s.pc = true)
    (hf : s.fetched = .illegal why) : step s = .next (s.afterFetch.halt .illegalInstruction) := by
  simp [step, h, hp, hf]

/-! ## The state an instruction executes in -/

theorem afterFetch_eq (s : State) : s.afterFetch = s.countTick.warn (illegalAddrs s.size s.pc 4) := rfl

@[simp] theorem afterFetch_regs (s : State) : s.afterFetch.regs = s.regs := rfl
@[simp] theorem afterFetch_pc (s : State) : s.afterFetch.pc = s.pc := rfl
@[simp] theorem afterFetch_mem (s : State) : s.afterFetch.mem = s.mem := rfl
@[simp] theorem afterFetch_cfg (s : State) : s.afterFetch.cfg = s.cfg := rfl
@[simp] theorem afterFetch_size (s : State) : s.afterFetch.size = s.size := rfl
@[simp] theorem afterFetch_halted (s : State) : s.afterFetch.halted = s.halted := rfl
@[simp] theorem afterFetch_haltReason (s : State) : s.afterFetch.haltReason = s.haltReason := rfl
@[simp] theorem afterFetch_insnCount (s : State) : s.afterFetch.insnCount = s.insnCount + 1 := rfl
@[simp] theorem afterFetch_showInstructions (s : State) : s.afterFetch.showInstructions = s.showInstructions := rfl
@[simp] theorem afterFetch_showRegisters (s : State) : s.afterFetch.showRegisters = s.showRegisters := rfl
@[simp] theorem afterFetch_readReg (s : State) (r : Reg) : s.afterFetch.readReg r = s.readReg r := rfl
@[simp] theorem afterFetch_byteAt (s : State) (a : Word) : s.afterFetch.byteAt a = s.byteAt a := rfl

/-- The fetch's warnings, whatever their order. -/
theorem afterFetch_log (s : State) :
    ∃ ws, s.afterFetch.diagLog = s.diagLog ++ ws ∧ ws.Perm (illegalAddrs s.size s.pc 4) :=
  ⟨_, rfl, arrangeWarnings_perm ..⟩

/-! ## The pc -/

/-- Alignment as arithmetic (R40). -/
theorem pcAligned_iff (p : Word) : pcAligned p = true ↔ p.toNat % 4 = 0 := by
  unfold pcAligned
  rw [decide_eq_true_iff, ← BitVec.toNat_inj, BitVec.extractLsb'_toNat]
  simp

/-- Bit 0 as arithmetic. -/
theorem getLsbD_zero_iff {n : Nat} (p : BitVec n) : p.getLsbD 0 = false ↔ p.toNat % 2 = 0 := by
  rw [BitVec.getLsbD, Nat.testBit_zero]
  simp

/-- Bit 0 of a sum of even words. -/
theorem even_add {a b : Word} (ha : a.getLsbD 0 = false) (hb : b.getLsbD 0 = false) : (a + b).getLsbD 0 = false := by
  rw [getLsbD_zero_iff] at *
  rw [BitVec.toNat_add]
  omega

theorem immBranch_even {off : BitVec 13} (h : evenOffset off = true) : (immBranch off).getLsbD 0 = false := by
  rw [immBranch, BitVec.getLsbD_signExtend]
  simpa [evenOffset] using h

theorem immJump_even {off : BitVec 21} (h : evenOffset off = true) : (immJump off).getLsbD 0 = false := by
  rw [immJump, BitVec.getLsbD_signExtend]
  simpa [evenOffset] using h

/-- JALR's target is even (R151). -/
theorem jalrTarget_even (s : State) (rs1 : Reg) (imm : BitVec 12) : (s.jalrTarget rs1 imm).getLsbD 0 = false := by
  simp [State.jalrTarget]

/-! ## Placing an instruction for the next tick -/

/-- What `withFetchWord` stores is what the next tick fetches, when the pc is inside memory. -/
theorem fetchWord_storeWordAtPc {s : State} (hm : s.mem.wf) (w : Word)
    (hl : ∀ i, i < 4 → legalAddr s.size (s.pc + BitVec.ofNat 32 i) = true) : (s.storeWordAtPc w).fetchWord = w :=
  memValue_memWrite_word hm s.pc w hl

end Sys2Proof.Machine
end

