-- ==== Sys2Proof/Laws/Frames.lean ====
section
/-! SUPPORT. The frames of the shapes an instruction ends in, what executing one instruction does to the pc and to the halted
flag, and what a program can see of it. -/

namespace Sys2Proof.Machine

/-! ## Frames of the shapes -/

/-- Everything `writeBack` does. -/
theorem writeBack_frame (s : State) (rd : Reg) (v : Word) :
    RegWritten rd v s (s.writeBack rd v) ∧ (s.writeBack rd v).pc = s.pc + 4#32 ∧ MemKept s (s.writeBack rd v) ∧
      LogKept s (s.writeBack rd v) ∧ ControlKept s (s.writeBack rd v) := by
  rw [writeBack_eq]
  exact ⟨fun r => by rw [setPc_readReg, writeReg_readReg], rfl, fun a => by simp, by simp [LogKept],
    by simp [ControlKept, SetupKept]⟩

/-- Everything `linkJump` does. -/
theorem linkJump_frame (s : State) (rd : Reg) (t : Word) :
    RegWritten rd (s.pc + 4#32) s (s.linkJump rd t) ∧ (s.linkJump rd t).pc = t ∧ MemKept s (s.linkJump rd t) ∧
      LogKept s (s.linkJump rd t) ∧ ControlKept s (s.linkJump rd t) := by
  unfold State.linkJump
  exact ⟨fun r => by rw [setPc_readReg, writeReg_readReg], rfl, fun a => by simp, by simp [LogKept],
    by simp [ControlKept, SetupKept]⟩

/-- Everything `loadTo` does. -/
theorem loadTo_frame (s : State) (rd : Reg) (a : Word) (n : Nat) (ext : Word → Word) :
    RegWritten rd (ext (s.memValue a n)) s (s.loadTo rd a n ext) ∧ (s.loadTo rd a n ext).pc = s.pc + 4#32 ∧
      MemKept s (s.loadTo rd a n ext) ∧ AccessLogged a n s (s.loadTo rd a n ext) ∧ ControlKept s (s.loadTo rd a n ext) := by
  rw [State.loadTo, writeBack_eq]
  exact ⟨fun r => by rw [setPc_readReg, writeReg_readReg]; rfl, rfl, fun x => by simp,
    ⟨_, by rw [setPc_diagLog, writeReg_diagLog]; rfl, arrangeWarnings_perm ..⟩, by simp [ControlKept, SetupKept]⟩

/-- Everything `storeFrom` does. -/
theorem storeFrom_frame {s : State} (hm : s.mem.wf) (a : Word) (n : Nat) (v : Word) (hn : n ≤ 4) :
    BytesStored a n v s (s.storeFrom a n v) ∧ RegsKept s (s.storeFrom a n v) ∧ (s.storeFrom a n v).pc = s.pc + 4#32 ∧
      AccessLogged a n s (s.storeFrom a n v) ∧ ControlKept s (s.storeFrom a n v) :=
  ⟨⟨fun _ hi => read8_writeBytes hm _ _ _ _ hi hn, fun _ hx => read8_writeBytes_ne hm _ _ _ _ hx⟩, fun _ => rfl, rfl,
    ⟨_, rfl, arrangeWarnings_perm ..⟩, ⟨rfl, rfl, rfl, rfl, rfl, rfl⟩⟩

/-- Everything `branch` does. -/
theorem branch_frame (s : State) (c : Bool) (t : Word) :
    (s.branch c t).pc = (if c then t else s.pc + 4#32) ∧ RegsKept s (s.branch c t) ∧ MemKept s (s.branch c t) ∧
      LogKept s (s.branch c t) ∧ ControlKept s (s.branch c t) := by
  cases c <;> exact ⟨rfl, fun _ => rfl, fun _ => rfl, rfl, rfl, rfl, rfl, rfl, rfl, rfl⟩

/-- Everything a pc advance does. -/
theorem advance_frame (s : State) :
    s.advance.pc = s.pc + 4#32 ∧ RegsKept s s.advance ∧ MemKept s s.advance ∧ LogKept s s.advance ∧ ControlKept s s.advance :=
  ⟨rfl, fun _ => rfl, fun _ => rfl, rfl, rfl, rfl, rfl, rfl, rfl, rfl⟩

/-- Everything a halt does. -/
theorem halt_frame (s : State) (r : HaltReason) : HaltedWith r s (s.halt r) :=
  ⟨rfl, rfl, rfl, fun _ => rfl, fun _ => rfl, rfl, rfl, rfl⟩

/-! ## The pc and the halted flag -/

theorem pcAligned_add_four {p : Word} (h : pcAligned p = true) : pcAligned (p + 4#32) = true := by
  rw [pcAligned_iff] at *
  rw [BitVec.toNat_add]
  simp
  omega

/-- Which instructions halt, and how (R160, R161, R163). -/
theorem exec_halts {i : Instr} {s t : State} (h : exec i s = .next t) (hs : s.halted = false) (ht : t.halted = true) :
    (i = .ecall ∧ t = s.halt .ecall) ∨ (i = .ebreak ∧ t = s.halt .ebreak) ∨
      (i.mnemonic = "FENCE" ∧ s.cfg.fenceMode = .illegal ∧ t = s.halt .illegalInstruction) := by
  cases i
  case ecall => cases h; simp
  case ebreak => cases h; simp
  case fence =>
    cases hm : s.cfg.fenceMode
    · rw [exec_fence_illegal s _ _ _ _ _ hm] at h; cases h; simp [Instr.mnemonic]
    · rw [exec_fence_nop s _ _ _ _ _ hm] at h; cases h; simp [hs] at ht
  case beq | bne | blt | bge | bltu | bgeu =>
    exfalso
    cases h
    rw [(branch_frame _ _ _).2.2.2.2.1, hs] at ht
    cases ht
  all_goals
    exfalso
    cases h
    revert ht
    simp [State.writeBack, State.linkJump, State.loadTo, State.storeFrom, hs]

/-- What executing one instruction makes of the pc: the next address, the old one, or the target of one of the eight control
transfers (R15, R140, R150, R151). -/
theorem exec_pc {i : Instr} {s t : State} (h : exec i s = .next t) :
    t.pc = s.pc + 4#32 ∨ (t.halted = true ∧ t.pc = s.pc) ∨
    (t.halted = s.halted ∧ i.mnemonic ∈ ["BEQ", "BNE", "BLT", "BGE", "BLTU", "BGEU", "JAL", "JALR"] ∧
      (i.wellFormed = true → s.pc.getLsbD 0 = false → t.pc.getLsbD 0 = false)) := by
  cases i
  case fence =>
    cases hm : s.cfg.fenceMode
    · rw [exec_fence_illegal s _ _ _ _ _ hm] at h; cases h; exact .inr (.inl ⟨rfl, rfl⟩)
    · rw [exec_fence_nop s _ _ _ _ _ hm] at h; cases h; exact .inl rfl
  case ecall | ebreak => cases h; exact .inr (.inl ⟨rfl, rfl⟩)
  case jal =>
    cases h
    exact .inr (.inr ⟨(linkJump_frame _ _ _).2.2.2.2.1, by simp [Instr.mnemonic], fun hw he => even_add he (immJump_even hw)⟩)
  case jalr =>
    cases h
    exact .inr (.inr ⟨(linkJump_frame _ _ _).2.2.2.2.1, by simp [Instr.mnemonic], fun _ _ => jalrTarget_even ..⟩)
  case beq | bne | blt | bge | bltu | bgeu =>
    cases h
    refine .inr (.inr ⟨(branch_frame _ _ _).2.2.2.2.1, by simp [Instr.mnemonic], fun hw he => ?_⟩)
    rw [(branch_frame _ _ _).1]
    split
    · exact even_add he (immBranch_even hw)
    · exact even_add he (by decide)
  case lb | lh | lw | lbu | lhu => cases h; exact .inl (loadTo_frame ..).2.1
  all_goals cases h
  all_goals first | exact .inl (writeBack_frame ..).2.1 | exact .inl rfl

/-! ## What a program can see -/

theorem SameToProgram.setPc {s s' : State} (h : SameToProgram s s') (p : Word) : SameToProgram (s.setPc p) (s'.setPc p) :=
  ⟨h.regs, rfl, h.bytes, h.halted, h.reason, h.cfg⟩

theorem SameToProgram.advance {s s' : State} (h : SameToProgram s s') : SameToProgram s.advance s'.advance := by
  have := h.setPc (s.pc + 4#32)
  unfold State.advance
  rw [← h.pc]
  exact this

theorem SameToProgram.warn {s s' : State} (h : SameToProgram s s') (as as' : List Word) :
    SameToProgram (s.warn as) (s'.warn as') := ⟨h.regs, h.pc, h.bytes, h.halted, h.reason, h.cfg⟩

theorem SameToProgram.halt {s s' : State} (h : SameToProgram s s') (r : HaltReason) : SameToProgram (s.halt r) (s'.halt r) :=
  ⟨h.regs, h.pc, h.bytes, rfl, rfl, h.cfg⟩

theorem SameToProgram.writeReg {s s' : State} (h : SameToProgram s s') (rd : Reg) (v : Word) :
    SameToProgram (s.writeReg rd v) (s'.writeReg rd v) := by
  refine ⟨fun r => ?_, by simp [h.pc], fun a => by simpa using h.bytes a, by simp [h.halted], by simp [h.reason], by simp [h.cfg]⟩
  rw [writeReg_readReg, writeReg_readReg, h.regs]

theorem SameToProgram.memValue {s s' : State} (h : SameToProgram s s') (a : Word) (n : Nat) :
    s.memValue a n = s'.memValue a n := readBytes_congr _ _ fun _ _ => h.bytes _

theorem SameToProgram.storeFrom {s s' : State} (h : SameToProgram s s') (hm : s.mem.wf) (hm' : s'.mem.wf) (a : Word) (n : Nat)
    (v : Word) (hn : n ≤ 4) : SameToProgram (s.storeFrom a n v) (s'.storeFrom a n v) := by
  have hb := (storeFrom_frame hm a n v hn).1
  have hb' := (storeFrom_frame hm' a n v hn).1
  have hsz : s.size = s'.size := congrArg memSize h.cfg
  refine ⟨h.regs, ?_, fun x => ?_, h.halted, h.reason, h.cfg⟩
  · show s.pc + _ = s'.pc + _
    rw [h.pc]
  · by_cases hx : ∃ i, i < n ∧ x = a + BitVec.ofNat 32 i
    · obtain ⟨i, hi, rfl⟩ := hx
      rw [hb.1 i hi, hb'.1 i hi, hsz]
    · have hx' : ∀ i, i < n → x ≠ a + BitVec.ofNat 32 i := fun i hi e => hx ⟨i, hi, e⟩
      rw [hb.2 x hx', hb'.2 x hx']
      exact h.bytes x

end Sys2Proof.Machine
end

