-- ==== Sys2Proof/Laws/PerInstr.lean ====
section
/-! SUPPORT. The family RowMatch, one lemma per instruction: the word an instruction encodes to matches the opcode table's row of
that instruction (spec 30_encoding.md R60). -/

namespace Sys2Proof.Laws.RowMatch

/-- The encoded word matches the row with the instruction's mnemonic. -/
def Statement (i : Instr) : Prop := ∃ r ∈ rowsOf .nop, r.accepts (encode i) = true ∧ r.mnemonic = i.mnemonic

theorem of_row {i : Instr} (r : Row) (hr : r ∈ rowsOf .nop) (h : encode i &&& r.mask = r.pattern)
    (hm : r.mnemonic = i.mnemonic) : Statement i :=
  ⟨r, hr, by simpa [Row.accepts] using h, hm⟩

theorem lui (rd : Reg) (imm20 : BitVec 20) : Statement (.lui rd imm20) :=
  of_row ⟨"LUI", 0x00000037#32, 0x0000007F#32⟩ (by decide)
    (by
    show encode _ &&& 0x0000007F#32 = _
    rw [match_of_opcode]
    simp [encode, place]) rfl
theorem auipc (rd : Reg) (imm20 : BitVec 20) : Statement (.auipc rd imm20) :=
  of_row ⟨"AUIPC", 0x00000017#32, 0x0000007F#32⟩ (by decide)
    (by
    show encode _ &&& 0x0000007F#32 = _
    rw [match_of_opcode]
    simp [encode, place]) rfl
theorem jal (rd : Reg) (off : BitVec 21) : Statement (.jal rd off) :=
  of_row ⟨"JAL", 0x0000006F#32, 0x0000007F#32⟩ (by decide)
    (by
    show encode _ &&& 0x0000007F#32 = _
    rw [match_of_opcode]
    simp [encode, place]) rfl
theorem jalr (rd rs1 : Reg) (imm : BitVec 12) : Statement (.jalr rd rs1 imm) :=
  of_row ⟨"JALR", 0x00000067#32, 0x0000707F#32⟩ (by decide)
    (by
    show encode _ &&& 0x0000707F#32 = _
    rw [match3_of_fields]
    simp [encode, place]) rfl
theorem beq (rs1 rs2 : Reg) (off : BitVec 13) : Statement (.beq rs1 rs2 off) :=
  of_row ⟨"BEQ", 0x00000063#32, 0x0000707F#32⟩ (by decide)
    (by
    show encode _ &&& 0x0000707F#32 = _
    rw [match3_of_fields]
    simp [encode, place]) rfl
theorem bne (rs1 rs2 : Reg) (off : BitVec 13) : Statement (.bne rs1 rs2 off) :=
  of_row ⟨"BNE", 0x00001063#32, 0x0000707F#32⟩ (by decide)
    (by
    show encode _ &&& 0x0000707F#32 = _
    rw [match3_of_fields]
    simp [encode, place]) rfl
theorem blt (rs1 rs2 : Reg) (off : BitVec 13) : Statement (.blt rs1 rs2 off) :=
  of_row ⟨"BLT", 0x00004063#32, 0x0000707F#32⟩ (by decide)
    (by
    show encode _ &&& 0x0000707F#32 = _
    rw [match3_of_fields]
    simp [encode, place]) rfl
theorem bge (rs1 rs2 : Reg) (off : BitVec 13) : Statement (.bge rs1 rs2 off) :=
  of_row ⟨"BGE", 0x00005063#32, 0x0000707F#32⟩ (by decide)
    (by
    show encode _ &&& 0x0000707F#32 = _
    rw [match3_of_fields]
    simp [encode, place]) rfl
theorem bltu (rs1 rs2 : Reg) (off : BitVec 13) : Statement (.bltu rs1 rs2 off) :=
  of_row ⟨"BLTU", 0x00006063#32, 0x0000707F#32⟩ (by decide)
    (by
    show encode _ &&& 0x0000707F#32 = _
    rw [match3_of_fields]
    simp [encode, place]) rfl
theorem bgeu (rs1 rs2 : Reg) (off : BitVec 13) : Statement (.bgeu rs1 rs2 off) :=
  of_row ⟨"BGEU", 0x00007063#32, 0x0000707F#32⟩ (by decide)
    (by
    show encode _ &&& 0x0000707F#32 = _
    rw [match3_of_fields]
    simp [encode, place]) rfl
theorem lb (rd rs1 : Reg) (imm : BitVec 12) : Statement (.lb rd rs1 imm) :=
  of_row ⟨"LB", 0x00000003#32, 0x0000707F#32⟩ (by decide)
    (by
    show encode _ &&& 0x0000707F#32 = _
    rw [match3_of_fields]
    simp [encode, place]) rfl
theorem lh (rd rs1 : Reg) (imm : BitVec 12) : Statement (.lh rd rs1 imm) :=
  of_row ⟨"LH", 0x00001003#32, 0x0000707F#32⟩ (by decide)
    (by
    show encode _ &&& 0x0000707F#32 = _
    rw [match3_of_fields]
    simp [encode, place]) rfl
theorem lw (rd rs1 : Reg) (imm : BitVec 12) : Statement (.lw rd rs1 imm) :=
  of_row ⟨"LW", 0x00002003#32, 0x0000707F#32⟩ (by decide)
    (by
    show encode _ &&& 0x0000707F#32 = _
    rw [match3_of_fields]
    simp [encode, place]) rfl
theorem lbu (rd rs1 : Reg) (imm : BitVec 12) : Statement (.lbu rd rs1 imm) :=
  of_row ⟨"LBU", 0x00004003#32, 0x0000707F#32⟩ (by decide)
    (by
    show encode _ &&& 0x0000707F#32 = _
    rw [match3_of_fields]
    simp [encode, place]) rfl
theorem lhu (rd rs1 : Reg) (imm : BitVec 12) : Statement (.lhu rd rs1 imm) :=
  of_row ⟨"LHU", 0x00005003#32, 0x0000707F#32⟩ (by decide)
    (by
    show encode _ &&& 0x0000707F#32 = _
    rw [match3_of_fields]
    simp [encode, place]) rfl
theorem sb (rs1 rs2 : Reg) (imm : BitVec 12) : Statement (.sb rs1 rs2 imm) :=
  of_row ⟨"SB", 0x00000023#32, 0x0000707F#32⟩ (by decide)
    (by
    show encode _ &&& 0x0000707F#32 = _
    rw [match3_of_fields]
    simp [encode, place]) rfl
theorem sh (rs1 rs2 : Reg) (imm : BitVec 12) : Statement (.sh rs1 rs2 imm) :=
  of_row ⟨"SH", 0x00001023#32, 0x0000707F#32⟩ (by decide)
    (by
    show encode _ &&& 0x0000707F#32 = _
    rw [match3_of_fields]
    simp [encode, place]) rfl
theorem sw (rs1 rs2 : Reg) (imm : BitVec 12) : Statement (.sw rs1 rs2 imm) :=
  of_row ⟨"SW", 0x00002023#32, 0x0000707F#32⟩ (by decide)
    (by
    show encode _ &&& 0x0000707F#32 = _
    rw [match3_of_fields]
    simp [encode, place]) rfl
theorem addi (rd rs1 : Reg) (imm : BitVec 12) : Statement (.addi rd rs1 imm) :=
  of_row ⟨"ADDI", 0x00000013#32, 0x0000707F#32⟩ (by decide)
    (by
    show encode _ &&& 0x0000707F#32 = _
    rw [match3_of_fields]
    simp [encode, place]) rfl
theorem slti (rd rs1 : Reg) (imm : BitVec 12) : Statement (.slti rd rs1 imm) :=
  of_row ⟨"SLTI", 0x00002013#32, 0x0000707F#32⟩ (by decide)
    (by
    show encode _ &&& 0x0000707F#32 = _
    rw [match3_of_fields]
    simp [encode, place]) rfl
theorem sltiu (rd rs1 : Reg) (imm : BitVec 12) : Statement (.sltiu rd rs1 imm) :=
  of_row ⟨"SLTIU", 0x00003013#32, 0x0000707F#32⟩ (by decide)
    (by
    show encode _ &&& 0x0000707F#32 = _
    rw [match3_of_fields]
    simp [encode, place]) rfl
theorem xori (rd rs1 : Reg) (imm : BitVec 12) : Statement (.xori rd rs1 imm) :=
  of_row ⟨"XORI", 0x00004013#32, 0x0000707F#32⟩ (by decide)
    (by
    show encode _ &&& 0x0000707F#32 = _
    rw [match3_of_fields]
    simp [encode, place]) rfl
theorem ori (rd rs1 : Reg) (imm : BitVec 12) : Statement (.ori rd rs1 imm) :=
  of_row ⟨"ORI", 0x00006013#32, 0x0000707F#32⟩ (by decide)
    (by
    show encode _ &&& 0x0000707F#32 = _
    rw [match3_of_fields]
    simp [encode, place]) rfl
theorem andi (rd rs1 : Reg) (imm : BitVec 12) : Statement (.andi rd rs1 imm) :=
  of_row ⟨"ANDI", 0x00007013#32, 0x0000707F#32⟩ (by decide)
    (by
    show encode _ &&& 0x0000707F#32 = _
    rw [match3_of_fields]
    simp [encode, place]) rfl
theorem slli (rd rs1 : Reg) (shamt : BitVec 5) : Statement (.slli rd rs1 shamt) :=
  of_row ⟨"SLLI", 0x00001013#32, 0xFE00707F#32⟩ (by decide)
    (by
    show encode _ &&& 0xFE00707F#32 = _
    rw [match7_of_fields]
    simp [encode, place]) rfl
theorem srli (rd rs1 : Reg) (shamt : BitVec 5) : Statement (.srli rd rs1 shamt) :=
  of_row ⟨"SRLI", 0x00005013#32, 0xFE00707F#32⟩ (by decide)
    (by
    show encode _ &&& 0xFE00707F#32 = _
    rw [match7_of_fields]
    simp [encode, place]) rfl
theorem srai (rd rs1 : Reg) (shamt : BitVec 5) : Statement (.srai rd rs1 shamt) :=
  of_row ⟨"SRAI", 0x40005013#32, 0xFE00707F#32⟩ (by decide)
    (by
    show encode _ &&& 0xFE00707F#32 = _
    rw [match7_of_fields]
    simp [encode, place]) rfl
theorem add (rd rs1 rs2 : Reg) : Statement (.add rd rs1 rs2) :=
  of_row ⟨"ADD", 0x00000033#32, 0xFE00707F#32⟩ (by decide)
    (by
    show encode _ &&& 0xFE00707F#32 = _
    rw [match7_of_fields]
    simp [encode, place]) rfl
theorem sub (rd rs1 rs2 : Reg) : Statement (.sub rd rs1 rs2) :=
  of_row ⟨"SUB", 0x40000033#32, 0xFE00707F#32⟩ (by decide)
    (by
    show encode _ &&& 0xFE00707F#32 = _
    rw [match7_of_fields]
    simp [encode, place]) rfl
theorem sll (rd rs1 rs2 : Reg) : Statement (.sll rd rs1 rs2) :=
  of_row ⟨"SLL", 0x00001033#32, 0xFE00707F#32⟩ (by decide)
    (by
    show encode _ &&& 0xFE00707F#32 = _
    rw [match7_of_fields]
    simp [encode, place]) rfl
theorem slt (rd rs1 rs2 : Reg) : Statement (.slt rd rs1 rs2) :=
  of_row ⟨"SLT", 0x00002033#32, 0xFE00707F#32⟩ (by decide)
    (by
    show encode _ &&& 0xFE00707F#32 = _
    rw [match7_of_fields]
    simp [encode, place]) rfl
theorem sltu (rd rs1 rs2 : Reg) : Statement (.sltu rd rs1 rs2) :=
  of_row ⟨"SLTU", 0x00003033#32, 0xFE00707F#32⟩ (by decide)
    (by
    show encode _ &&& 0xFE00707F#32 = _
    rw [match7_of_fields]
    simp [encode, place]) rfl
theorem xor (rd rs1 rs2 : Reg) : Statement (.xor rd rs1 rs2) :=
  of_row ⟨"XOR", 0x00004033#32, 0xFE00707F#32⟩ (by decide)
    (by
    show encode _ &&& 0xFE00707F#32 = _
    rw [match7_of_fields]
    simp [encode, place]) rfl
theorem srl (rd rs1 rs2 : Reg) : Statement (.srl rd rs1 rs2) :=
  of_row ⟨"SRL", 0x00005033#32, 0xFE00707F#32⟩ (by decide)
    (by
    show encode _ &&& 0xFE00707F#32 = _
    rw [match7_of_fields]
    simp [encode, place]) rfl
theorem sra (rd rs1 rs2 : Reg) : Statement (.sra rd rs1 rs2) :=
  of_row ⟨"SRA", 0x40005033#32, 0xFE00707F#32⟩ (by decide)
    (by
    show encode _ &&& 0xFE00707F#32 = _
    rw [match7_of_fields]
    simp [encode, place]) rfl
theorem or (rd rs1 rs2 : Reg) : Statement (.or rd rs1 rs2) :=
  of_row ⟨"OR", 0x00006033#32, 0xFE00707F#32⟩ (by decide)
    (by
    show encode _ &&& 0xFE00707F#32 = _
    rw [match7_of_fields]
    simp [encode, place]) rfl
theorem and (rd rs1 rs2 : Reg) : Statement (.and rd rs1 rs2) :=
  of_row ⟨"AND", 0x00007033#32, 0xFE00707F#32⟩ (by decide)
    (by
    show encode _ &&& 0xFE00707F#32 = _
    rw [match7_of_fields]
    simp [encode, place]) rfl
theorem fence (fm pred succ : BitVec 4) (rs1 rd : Reg) : Statement (.fence fm pred succ rs1 rd) :=
  of_row ⟨"FENCE", 0x0000000F#32, 0x0000707F#32⟩ (by decide)
    (by
    show encode _ &&& 0x0000707F#32 = _
    rw [match3_of_fields]
    simp [encode, place]) rfl
theorem ecall : Statement (.ecall) :=
  of_row ⟨"ECALL", 0x00000073#32, 0xFFFFFFFF#32⟩ (by decide)
    (by decide) rfl
theorem ebreak : Statement (.ebreak) :=
  of_row ⟨"EBREAK", 0x00100073#32, 0xFFFFFFFF#32⟩ (by decide)
    (by decide) rfl
theorem csrrw (rd : Reg) (csr : BitVec 12) (rs1 : Reg) : Statement (.csrrw rd csr rs1) :=
  of_row ⟨"CSRRW", 0x00001073#32, 0x0000707F#32⟩ (by decide)
    (by
    show encode _ &&& 0x0000707F#32 = _
    rw [match3_of_fields]
    simp [encode, place]) rfl
theorem csrrs (rd : Reg) (csr : BitVec 12) (rs1 : Reg) : Statement (.csrrs rd csr rs1) :=
  of_row ⟨"CSRRS", 0x00002073#32, 0x0000707F#32⟩ (by decide)
    (by
    show encode _ &&& 0x0000707F#32 = _
    rw [match3_of_fields]
    simp [encode, place]) rfl
theorem csrrc (rd : Reg) (csr : BitVec 12) (rs1 : Reg) : Statement (.csrrc rd csr rs1) :=
  of_row ⟨"CSRRC", 0x00003073#32, 0x0000707F#32⟩ (by decide)
    (by
    show encode _ &&& 0x0000707F#32 = _
    rw [match3_of_fields]
    simp [encode, place]) rfl
theorem csrrwi (rd : Reg) (csr : BitVec 12) (uimm : BitVec 5) : Statement (.csrrwi rd csr uimm) :=
  of_row ⟨"CSRRWI", 0x00005073#32, 0x0000707F#32⟩ (by decide)
    (by
    show encode _ &&& 0x0000707F#32 = _
    rw [match3_of_fields]
    simp [encode, place]) rfl
theorem csrrsi (rd : Reg) (csr : BitVec 12) (uimm : BitVec 5) : Statement (.csrrsi rd csr uimm) :=
  of_row ⟨"CSRRSI", 0x00006073#32, 0x0000707F#32⟩ (by decide)
    (by
    show encode _ &&& 0x0000707F#32 = _
    rw [match3_of_fields]
    simp [encode, place]) rfl
theorem csrrci (rd : Reg) (csr : BitVec 12) (uimm : BitVec 5) : Statement (.csrrci rd csr uimm) :=
  of_row ⟨"CSRRCI", 0x00007073#32, 0x0000707F#32⟩ (by decide)
    (by
    show encode _ &&& 0x0000707F#32 = _
    rw [match3_of_fields]
    simp [encode, place]) rfl

end Sys2Proof.Laws.RowMatch
end

