-- ==== Sys2Proof/Tests/Slice0.lean ====
section
/-! SUPPORT. The model's own tests: well-formedness, decoding of words written out from the formats, one step per instruction, and
a witness for the hypotheses of every statement. Expected values are those of spec 95_test_vectors.md and of the rules' examples. -/

open Sys2Proof Sys2Proof.Machine

namespace Sys2Proof.Tests

/-! ## Well-formedness (R55, R57): a displacement is even -/

theorem test_wellFormed_refuses_odd_branch : (Instr.beq 1 2 0x001#13).wellFormed = false ∧ (Instr.bgeu 0 31 0x1FFF#13).wellFormed = false ∧
    (Instr.bne 1 2 3#13).wellFormed = false ∧ (Instr.blt 1 2 5#13).wellFormed = false ∧ (Instr.bge 1 2 7#13).wellFormed = false ∧
    (Instr.bltu 1 2 9#13).wellFormed = false := by decide
theorem test_wellFormed_refuses_odd_jal : (Instr.jal 1 0x000001#21).wellFormed = false ∧ (Instr.jal 0 0x1FFFFF#21).wellFormed = false := by decide
theorem test_wellFormed_accepts_even : (Instr.beq 1 2 0x1FFE#13).wellFormed = true ∧ (Instr.jal 1 0x1FFFFE#21).wellFormed = true ∧
    (Instr.jalr 1 2 0xFFF#12).wellFormed = true := by decide

/-! ## Decoding: one word per instruction, written out from the formats of R52 and the codes of R61 to R68 -/

theorem test_decode_upper_and_jumps :
    decode .illegal 0xDEADC2B7#32 = .instr (.lui 5 0xDEADC#20) ∧
    decode .illegal 0xFFFFF297#32 = .instr (.auipc 5 0xFFFFF#20) ∧
    decode .illegal 0x001002EF#32 = .instr (.jal 5 0x000800#21) ∧
    decode .illegal 0xFFC080E7#32 = .instr (.jalr 1 1 0xFFC#12) := by decide
theorem test_decode_branches :
    decode .illegal 0x00208863#32 = .instr (.beq 1 2 16#13) ∧
    decode .illegal 0xFE209CE3#32 = .instr (.bne 1 2 0x1FF8#13) ∧
    decode .illegal 0x0020C463#32 = .instr (.blt 1 2 8#13) ∧
    decode .illegal 0x0020D463#32 = .instr (.bge 1 2 8#13) ∧
    decode .illegal 0x0020E463#32 = .instr (.bltu 1 2 8#13) ∧
    decode .illegal 0x0020F463#32 = .instr (.bgeu 1 2 8#13) := by decide
theorem test_decode_loads :
    decode .illegal 0x00408283#32 = .instr (.lb 5 1 4#12) ∧
    decode .illegal 0x00109283#32 = .instr (.lh 5 1 1#12) ∧
    decode .illegal 0xFFC0A283#32 = .instr (.lw 5 1 0xFFC#12) ∧
    decode .illegal 0x7FF0C283#32 = .instr (.lbu 5 1 0x7FF#12) ∧
    decode .illegal 0x0020D283#32 = .instr (.lhu 5 1 2#12) := by decide
theorem test_decode_stores :
    decode .illegal 0xFE200FA3#32 = .instr (.sb 0 2 0xFFF#12) ∧
    decode .illegal 0x002091A3#32 = .instr (.sh 1 2 3#12) ∧
    decode .illegal 0xFE20AE23#32 = .instr (.sw 1 2 0xFFC#12) := by decide
theorem test_decode_alu_immediate :
    decode .illegal 0x80000093#32 = .instr (.addi 1 0 0x800#12) ∧
    decode .illegal 0xFFF12093#32 = .instr (.slti 1 2 0xFFF#12) ∧
    decode .illegal 0xFFF13093#32 = .instr (.sltiu 1 2 0xFFF#12) ∧
    decode .illegal 0x55514093#32 = .instr (.xori 1 2 0x555#12) ∧
    decode .illegal 0x70016093#32 = .instr (.ori 1 2 0x700#12) ∧
    decode .illegal 0x0FF17093#32 = .instr (.andi 1 2 0x0FF#12) ∧
    decode .illegal 0x01F11093#32 = .instr (.slli 1 2 31#5) ∧
    decode .illegal 0x00415093#32 = .instr (.srli 1 2 4#5) ∧
    decode .illegal 0x40415093#32 = .instr (.srai 1 2 4#5) := by decide
theorem test_decode_alu_register :
    decode .illegal 0x002081B3#32 = .instr (.add 3 1 2) ∧
    decode .illegal 0x402081B3#32 = .instr (.sub 3 1 2) ∧
    decode .illegal 0x002091B3#32 = .instr (.sll 3 1 2) ∧
    decode .illegal 0x0020A1B3#32 = .instr (.slt 3 1 2) ∧
    decode .illegal 0x0020B1B3#32 = .instr (.sltu 3 1 2) ∧
    decode .illegal 0x0020C1B3#32 = .instr (.xor 3 1 2) ∧
    decode .illegal 0x0020D1B3#32 = .instr (.srl 3 1 2) ∧
    decode .illegal 0x4020D1B3#32 = .instr (.sra 3 1 2) ∧
    decode .illegal 0x0020E1B3#32 = .instr (.or 3 1 2) ∧
    decode .illegal 0x0020F1B3#32 = .instr (.and 3 1 2) := by decide
theorem test_decode_system :
    decode .illegal 0x00000073#32 = .instr (.ecall) ∧
    decode .illegal 0x00100073#32 = .instr (.ebreak) ∧
    decode .illegal 0x340312F3#32 = .instr (.csrrw 5 0x340#12 6) ∧
    decode .illegal 0xF14022F3#32 = .instr (.csrrs 5 0xF14#12 0) ∧
    decode .illegal 0x300332F3#32 = .instr (.csrrc 5 0x300#12 6) ∧
    decode .illegal 0x3401D2F3#32 = .instr (.csrrwi 5 0x340#12 3#5) ∧
    decode .illegal 0x300462F3#32 = .instr (.csrrsi 5 0x300#12 8#5) ∧
    decode .illegal 0x300472F3#32 = .instr (.csrrci 5 0x300#12 8#5) := by decide
theorem test_decode_fence : decode .nop 0x0330000F#32 = .instr (.fence 0#4 3#4 3#4 0 0) ∧
    decode .nop 0x8330000F#32 = .instr (.fence 8#4 3#4 3#4 0 0) ∧ (decode .illegal 0x0330000F#32).instr? = none := by decide
theorem test_decode_displacement_extremes :
    decode .illegal 0x7E000FE3#32 = .instr (.beq 0 0 0x0FFE#13) ∧ decode .illegal 0x80000063#32 = .instr (.beq 0 0 0x1000#13) ∧
    decode .illegal 0x7FFFF0EF#32 = .instr (.jal 1 0x0FFFFE#21) ∧ decode .illegal 0x800000EF#32 = .instr (.jal 1 0x100000#21) := by decide
theorem test_decode_registers_31 : decode .illegal 0x01FF8FB3#32 = .instr (.add 31 31 31) ∧
    decode .illegal 0xFFFFAFA3#32 = .instr (.sw 31 31 0xFFF#12) := by decide
theorem test_decodeTableWord : decodeTableWord 32 0x0000000F = some (.fence 0 0 0 0 0) ∧ decodeTableWord 32 0x00000013 = some (.addi 0 0 0) ∧
    decodeTableWord 32 0xA5A5A5A5 = none := by decide

/-! ## One step per instruction -/

/-- Reset, with `x1`, `x2` and the pc set, and `word` at pc `0x20`. -/
def at20 (word : Nat) (x1 x2 : Word) : State :=
  State.withFetchWord (((State.reset.writeReg 1 x1).writeReg 2 x2).setPc 0x20#32) 32 word

/-- `at20` with the bytes EF BE AD DE 7F 80 from `0x40` on. -/
def data40 (word : Nat) (x1 : Word) : State := ((at20 word x1 0#32).memWrite 0x40#32 4 0xDEADBEEF#32).memWrite 0x44#32 2 0x807F#32

/-- What one step leaves in a register, and the pc. -/
def sees (s : State) (r : Reg) : Option (Word × Word) :=
  match step s with
  | .next t => if t.halted then none else some (t.readReg r, t.pc)
  | _ => none

/-- Where one step halts: reason, pc and counter. -/
def halts (s : State) : Option (HaltReason × Word × Nat) :=
  match step s with
  | .next t => if t.halted then some (t.haltReason, t.pc, t.insnCount) else none
  | _ => none

/-- One step answers a next state of which `p` holds. -/
def answers (s : State) (p : State → Bool) : Bool :=
  match step s with
  | .next t => p t
  | _ => false

/-- What one step stores: the word read at `a`, and the pc. -/
def stores (s : State) (a : Word) : Option (Word × Word) :=
  match step s with
  | .next t => some (t.memValue a 4, t.pc)
  | _ => none

theorem test_step_add : sees (at20 0x002081B3 0x7FFFFFFF#32 0x00000001#32) 3 = some (0x80000000#32, 0x24#32) ∧
    sees (at20 0x002081B3 0xFFFFFFFF#32 0x00000001#32) 3 = some (0x00000000#32, 0x24#32) := by decide
theorem test_step_add_same_register : sees (at20 0x001080B3 0x40000000#32 0#32) 1 = some (0x80000000#32, 0x24#32) ∧
    sees (at20 0x00208033 1#32 2#32) 0 = some (0#32, 0x24#32) := by decide
theorem test_step_sub : sees (at20 0x402081B3 0x00000000#32 0x00000001#32) 3 = some (0xFFFFFFFF#32, 0x24#32) ∧
    sees (at20 0x402081B3 0x80000000#32 0x00000001#32) 3 = some (0x7FFFFFFF#32, 0x24#32) := by decide
theorem test_step_sll : sees (at20 0x002091B3 0x00000001#32 0x00000021#32) 3 = some (0x00000002#32, 0x24#32) ∧
    sees (at20 0x002091B3 0x00000003#32 0x0000001F#32) 3 = some (0x80000000#32, 0x24#32) := by decide
theorem test_step_slt : sees (at20 0x0020A1B3 0xFFFFFFFF#32 0x00000001#32) 3 = some (0x00000001#32, 0x24#32) ∧
    sees (at20 0x0020A1B3 0x7FFFFFFF#32 0x80000000#32) 3 = some (0x00000000#32, 0x24#32) := by decide
theorem test_step_sltu : sees (at20 0x0020B1B3 0xFFFFFFFF#32 0x00000001#32) 3 = some (0x00000000#32, 0x24#32) ∧
    sees (at20 0x0020B1B3 0x7FFFFFFF#32 0x80000000#32) 3 = some (0x00000001#32, 0x24#32) := by decide
theorem test_step_xor : sees (at20 0x0020C1B3 0x12345678#32 0xFFFFFFFF#32) 3 = some (0xEDCBA987#32, 0x24#32) := by decide
theorem test_step_srl : sees (at20 0x0020D1B3 0x80000000#32 0x00000004#32) 3 = some (0x08000000#32, 0x24#32) ∧
    sees (at20 0x0020D1B3 0x80000000#32 0x00000020#32) 3 = some (0x80000000#32, 0x24#32) := by decide
theorem test_step_sra : sees (at20 0x4020D1B3 0x80000000#32 0x00000004#32) 3 = some (0xF8000000#32, 0x24#32) ∧
    sees (at20 0x4020D1B3 0x7FFFFFFF#32 0x0000001F#32) 3 = some (0x00000000#32, 0x24#32) := by decide
theorem test_step_or : sees (at20 0x0020E1B3 0xFF00FF00#32 0x0FF00FF0#32) 3 = some (0xFFF0FFF0#32, 0x24#32) := by decide
theorem test_step_and : sees (at20 0x0020F1B3 0xFF00FF00#32 0x0FF00FF0#32) 3 = some (0x0F000F00#32, 0x24#32) := by decide
theorem test_step_addi : sees (at20 0x80000093 0x00000000#32 0x00000000#32) 1 = some (0xFFFFF800#32, 0x24#32) ∧
    sees (at20 0x00108093 0xFFFFFFFF#32 0x00000000#32) 1 = some (0x00000000#32, 0x24#32) := by decide
theorem test_step_slti : sees (at20 0xFFF12093 0x00000000#32 0xFFFFFFFE#32) 1 = some (0x00000001#32, 0x24#32) ∧
    sees (at20 0x00012093 0x00000000#32 0x00000000#32) 1 = some (0x00000000#32, 0x24#32) := by decide
theorem test_step_sltiu : sees (at20 0xFFF13093 0x00000000#32 0x00000005#32) 1 = some (0x00000001#32, 0x24#32) ∧
    sees (at20 0xFFF13093 0x00000000#32 0xFFFFFFFF#32) 1 = some (0x00000000#32, 0x24#32) := by decide
theorem test_step_xori : sees (at20 0x55514093 0x00000000#32 0xFFFFFFFF#32) 1 = some (0xFFFFFAAA#32, 0x24#32) := by decide
theorem test_step_ori : sees (at20 0x80016093 0x00000000#32 0x00000000#32) 1 = some (0xFFFFF800#32, 0x24#32) := by decide
theorem test_step_andi : sees (at20 0xFF017093 0x00000000#32 0x12345678#32) 1 = some (0x12345670#32, 0x24#32) := by decide
theorem test_step_slli : sees (at20 0x00411093 0x00000000#32 0x12345678#32) 1 = some (0x23456780#32, 0x24#32) := by decide
theorem test_step_srli : sees (at20 0x00415093 0x00000000#32 0x87654321#32) 1 = some (0x08765432#32, 0x24#32) := by decide
theorem test_step_srai : sees (at20 0x40415093 0x00000000#32 0x87654321#32) 1 = some (0xF8765432#32, 0x24#32) ∧
    sees (at20 0x40015093 0x00000000#32 0x80000000#32) 1 = some (0x80000000#32, 0x24#32) := by decide
theorem test_step_lui : sees (at20 0xDEADC2B7 0x00000000#32 0x00000000#32) 5 = some (0xDEADC000#32, 0x24#32) := by decide
theorem test_step_auipc : sees (at20 0xFFFFF297 0x00000000#32 0x00000000#32) 5 = some (0xFFFFF020#32, 0x24#32) := by decide
theorem test_step_beq : sees (at20 0x00208863 0x00000005#32 0x00000005#32) 1 = some (0x00000005#32, 0x00000030#32) ∧
    sees (at20 0x80000063 0x00000005#32 0x00000006#32) 1 = some (0x00000005#32, 0xFFFFF020#32) := by decide
theorem test_step_bne : sees (at20 0xFE209CE3 0x00000005#32 0x00000006#32) 1 = some (0x00000005#32, 0x00000018#32) ∧
    sees (at20 0xFE209CE3 0x00000005#32 0x00000005#32) 1 = some (0x00000005#32, 0x00000024#32) := by decide
theorem test_step_blt : sees (at20 0x0020C463 0xFFFFFFFF#32 0x00000001#32) 1 = some (0xFFFFFFFF#32, 0x00000028#32) ∧
    sees (at20 0x0020C463 0x00000001#32 0xFFFFFFFF#32) 1 = some (0x00000001#32, 0x00000024#32) := by decide
theorem test_step_bge : sees (at20 0x0020D463 0x00000001#32 0x00000001#32) 1 = some (0x00000001#32, 0x00000028#32) ∧
    sees (at20 0x0020D463 0x80000000#32 0x00000000#32) 1 = some (0x80000000#32, 0x00000024#32) := by decide
theorem test_step_bltu : sees (at20 0x0020E463 0x00000001#32 0xFFFFFFFF#32) 1 = some (0x00000001#32, 0x00000028#32) ∧
    sees (at20 0x0020E463 0xFFFFFFFF#32 0x00000001#32) 1 = some (0xFFFFFFFF#32, 0x00000024#32) := by decide
theorem test_step_bgeu : sees (at20 0x0020F463 0xFFFFFFFF#32 0x00000001#32) 1 = some (0xFFFFFFFF#32, 0x00000028#32) ∧
    sees (at20 0x0020F463 0x00000000#32 0x00000001#32) 1 = some (0x00000000#32, 0x00000024#32) := by decide
theorem test_step_jal : sees (at20 0x800000EF 0x00000000#32 0x00000000#32) 1 = some (0x00000024#32, 0xFFF00020#32) ∧
    sees (at20 0x7FFFF0EF 0x00000000#32 0x00000000#32) 1 = some (0x00000024#32, 0x0010001E#32) := by decide
theorem test_step_jalr : sees (at20 0xFFC080E7 0x00000080#32 0x00000000#32) 1 = some (0x00000024#32, 0x0000007C#32) := by decide
theorem test_step_jalr_bit0 : sees (at20 0x003082E7 0x80#32 0#32) 5 = some (0x24#32, 0x82#32) ∧
    sees (at20 0x001082E7 0x80#32 0#32) 5 = some (0x24#32, 0x80#32) := by decide
theorem test_step_lb : sees (data40 0x00008283 0x00000040#32) 5 = some (0xFFFFFFEF#32, 0x24#32) ∧
    sees (data40 0x00408283 0x00000040#32) 5 = some (0x0000007F#32, 0x24#32) := by decide
theorem test_step_lh : sees (data40 0x00109283 0x00000040#32) 5 = some (0xFFFFADBE#32, 0x24#32) := by decide
theorem test_step_lw : sees (data40 0x0010A283 0x00000040#32) 5 = some (0x7FDEADBE#32, 0x24#32) ∧
    sees (data40 0xFFC0A283 0x00000044#32) 5 = some (0xDEADBEEF#32, 0x24#32) := by decide
theorem test_step_lbu : sees (data40 0x0000C283 0x00000040#32) 5 = some (0x000000EF#32, 0x24#32) := by decide
theorem test_step_lhu : sees (data40 0x0040D283 0x00000040#32) 5 = some (0x0000807F#32, 0x24#32) := by decide
theorem test_step_lw_past_the_end : sees (at20 0xFFF02283 0#32 0#32) 5 = some (0xA5A5A500#32, 0x24#32) ∧
    sees (at20 0x0000A283 0xFE#32 0#32) 5 = some (0x0000A5A5#32, 0x24#32) ∧
    sees (at20 0x0000A283 0x100#32 0#32) 5 = some (0#32, 0x24#32) := by decide
/-- VC18: a load to x0 still logs its four warnings, in an order left open. -/
theorem test_step_lw_x0_warns : ∃ t, step (at20 0x0000A003 0x100#32 0#32) = .next t ∧ t.pc = 0x24#32 ∧
    t.diagLog.Perm [0x100#32, 0x101#32, 0x102#32, 0x103#32] := ⟨_, rfl, rfl, (arrangeWarnings_perm _ _).trans (by decide)⟩
/-- VD10: a store past the end logs two warnings. -/
theorem test_step_sw_warns : ∃ t, step (at20 0x0020A023 0xFE#32 0x12345678#32) = .next t ∧ t.diagLog.Perm [0x100#32, 0x101#32] :=
  ⟨_, rfl, (arrangeWarnings_perm _ _).trans (by decide)⟩
theorem test_step_lh_past_the_end : sees ((at20 0x00009283 0xFF#32 0#32).memWrite 0xFF#32 1 0x80#32) 5 = some (0x80#32, 0x24#32) ∧
    answers (at20 0x00009283 0xFF#32 0#32) (fun t => t.diagLog = [0x100#32]) = true := by decide
theorem test_step_sb : stores (at20 0x00208023 0x40#32 0x12345678#32) 0x40#32 = some (0xA5A5A578#32, 0x24#32) ∧
    answers (at20 0xFE200FA3 0#32 0x12345678#32) (fun t => t.diagLog = [0xFFFFFFFF#32]) = true := by decide
theorem test_step_sh : stores (at20 0x002091A3 0x40#32 0xBEEF#32) 0x42#32 = some (0xA5BEEFA5#32, 0x24#32) := by decide
theorem test_step_sw : stores (at20 0xFE20AE23 0x44#32 0x12345678#32) 0x40#32 = some (0x12345678#32, 0x24#32) ∧
    stores (at20 0x0020A023 0xFE#32 0x12345678#32) 0xFC#32 = some (0x5678A5A5#32, 0x24#32) := by decide
theorem test_step_store_of_fill_is_no_change : answers (at20 0x00208023 0x40#32 0xA5#32) (fun t => t.mem = (at20 0x00208023 0x40#32 0xA5#32).mem) = true := by decide
theorem test_step_ecall : halts (at20 0x00000073 0#32 0#32) = some (.ecall, 0x20#32, 1) := by decide
theorem test_step_ebreak : halts (at20 0x00100073 0#32 0#32) = some (.ebreak, 0x20#32, 1) := by decide
theorem test_step_fence : sees (at20 0x0330000F 7#32 0#32) 1 = some (7#32, 0x24#32) ∧
    halts { at20 0x0330000F 0#32 0#32 with cfg := Config.default } = some (.illegalInstruction, 0x20#32, 1) := by decide
theorem test_step_csr_stubs : sees (at20 0x340312F3 0#32 0#32) 5 = some (0xF0F0F0F0#32, 0x24#32) ∧
    sees (at20 0xF14022F3 0#32 0#32) 5 = some (0xF0F0F0F0#32, 0x24#32) ∧ sees (at20 0x300332F3 0#32 0#32) 5 = some (0xF0F0F0F0#32, 0x24#32) := by decide
theorem test_step_csr_immediate_stubs : sees (at20 0x3401D2F3 0#32 0#32) 5 = some (0xF0F0F0F0#32, 0x24#32) ∧
    sees (at20 0x300462F3 0#32 0#32) 5 = some (0xF0F0F0F0#32, 0x24#32) ∧ sees (at20 0x300472F3 0#32 0#32) 5 = some (0xF0F0F0F0#32, 0x24#32) := by decide

/-! ## The tick (vectors VH) and reset -/

theorem test_tick_halted : step { State.reset with halted := true, haltReason := .ecall, insnCount := 1 } =
    .next { State.reset with halted := true, haltReason := .ecall, insnCount := 1 } := rfl
theorem test_tick_misaligned : halts (State.reset.setPc 2#32) = some (.pcAlignment, 2#32, 1) ∧
    halts (State.reset.setPc 0x102#32) = some (.pcAlignment, 0x102#32, 1) ∧ halts (State.reset.setPc 3#32) = some (.pcAlignment, 3#32, 1) := by decide
theorem test_tick_outside_memory : halts (State.reset.setPc 0x100#32) = some (.illegalInstruction, 0x100#32, 1) ∧
    halts (State.reset.setPc 0xFFFFFFFC#32) = some (.illegalInstruction, 0xFFFFFFFC#32, 1) := by decide
/-- VH5: four warnings of the fetch; VH2: none before the alignment check. -/
theorem test_tick_logs : (∃ t, step (State.reset.setPc 0x100#32) = .next t ∧ t.diagLog.Perm [0x100#32, 0x101#32, 0x102#32, 0x103#32]) ∧
    answers (State.reset.setPc 0x102#32) (fun t => t.diagLog = []) = true :=
  ⟨⟨_, rfl, (arrangeWarnings_perm _ _).trans (by decide)⟩, by decide⟩
theorem test_tick_empty_memory : halts (State.construct { memSizeCfg := ⟨0, by decide⟩, fenceMode := .illegal }) = some (.illegalInstruction, 0#32, 1) ∧
    halts State.reset = some (.illegalInstruction, 0#32, 1) := by decide
theorem test_memSize : memSize { memSizeCfg := ⟨0, by decide⟩, fenceMode := .nop } = 0 ∧ memSize { memSizeCfg := ⟨1, by decide⟩, fenceMode := .nop } = 16 ∧
    memSize { memSizeCfg := ⟨17, by decide⟩, fenceMode := .nop } = 32 ∧ memSize { memSizeCfg := ⟨0xFFFFFFF0, by decide⟩, fenceMode := .nop } = 0xFFFFFFF0 := by decide
theorem test_limit : ∃ t, runLoop 3 5 (State.withFetchWord State.reset 32 0x00000063) = .next t ∧ t.insnCount = 3 ∧ t.halted = false :=
  ⟨_, rfl, rfl, rfl⟩

/-! ## Witnesses: concrete values that meet the hypotheses of each statement together -/

theorem witness_decodeOfEncode : (Instr.beq 1 2 0x1000#13).wellFormed = true ∧ (Instr.beq 1 2 0x1000#13).mnemonic ≠ "FENCE" ∧
    (Instr.fence 15#4 15#4 15#4 31 31).wellFormed = true := by decide
theorem witness_encodeOfDecode : decode .illegal 0xFE209CE3#32 = .instr (.bne 1 2 0x1FF8#13) ∧
    decode .nop 0xFFFF8F8F#32 = .instr (.fence 15#4 15#4 15#4 31 31) := by decide
theorem witness_decoderAccepts : (∃ r ∈ rowsOf .nop, r.accepts 0x0330000F#32 = true) ∧ (∃ r ∈ rowsOf .illegal, r.accepts 0x00000073#32 = true) ∧
    (at20 0xA5A5A5A5 0#32 0#32).halted = false ∧ pcAligned (at20 0xA5A5A5A5 0#32 0#32).pc = true ∧
    (∀ r ∈ rowsOf .illegal, r.accepts ((at20 0xA5A5A5A5 0#32 0#32).memValue 0x20#32 4) = false) ∧
    (∃ r ∈ rowsOf .illegal, r.accepts ((at20 0x00000013 0#32 0#32).memValue 0x20#32 4) = true) := by decide
theorem witness_immediates_boundaries : imm12 (immIOf 0x80000093#32) = 0xFFFFF800#32 ∧ imm12 (immIOf 0x7FF00093#32) = 0x7FF#32 ∧
    imm12 (immSOf 0xFE20AE23#32) = 0xFFFFFFFC#32 ∧ immBranch (immBOf 0x7E000FE3#32) = 0xFFE#32 ∧
    immBranch (immBOf 0x80000063#32) = 0xFFFFF000#32 ∧ immUpper (immUOf 0xDEADC2B7#32) = 0xDEADC000#32 ∧
    immJump (immJOf 0x7FFFF0EF#32) = 0xFFFFE#32 ∧ immJump (immJOf 0x800000EF#32) = 0xFFF00000#32 := by decide
theorem witness_fenceMode : opcodeOf 0x00000013#32 ≠ 0b0001111#7 ∧ opcodeOf 0x0000100F#32 = 0b0001111#7 ∧ funct3Of 0x0000100F#32 ≠ 0b000#3 ∧
    opcodeOf 0x8330000F#32 = 0b0001111#7 ∧ funct3Of 0x8330000F#32 = 0b000#3 := by decide

theorem witness_words_upper_and_jumps : 0xDEADC2B7#32 &&& 0x0000007F#32 = 0x00000037#32 ∧ 0xFFFFF297#32 &&& 0x0000007F#32 = 0x00000017#32 ∧ 0x001002EF#32 &&& 0x0000007F#32 = 0x0000006F#32 ∧ 0xFFC080E7#32 &&& 0x0000707F#32 = 0x00000067#32 := by decide
theorem witness_words_branches : 0x00208863#32 &&& 0x0000707F#32 = 0x00000063#32 ∧ 0xFE209CE3#32 &&& 0x0000707F#32 = 0x00001063#32 ∧ 0x0020C463#32 &&& 0x0000707F#32 = 0x00004063#32 ∧ 0x0020D463#32 &&& 0x0000707F#32 = 0x00005063#32 ∧ 0x0020E463#32 &&& 0x0000707F#32 = 0x00006063#32 ∧ 0x0020F463#32 &&& 0x0000707F#32 = 0x00007063#32 := by decide
theorem witness_words_loads : 0x00408283#32 &&& 0x0000707F#32 = 0x00000003#32 ∧ 0x00109283#32 &&& 0x0000707F#32 = 0x00001003#32 ∧ 0xFFC0A283#32 &&& 0x0000707F#32 = 0x00002003#32 ∧ 0x7FF0C283#32 &&& 0x0000707F#32 = 0x00004003#32 ∧ 0x0020D283#32 &&& 0x0000707F#32 = 0x00005003#32 := by decide
theorem witness_words_stores : 0xFE200FA3#32 &&& 0x0000707F#32 = 0x00000023#32 ∧ 0x002091A3#32 &&& 0x0000707F#32 = 0x00001023#32 ∧ 0xFE20AE23#32 &&& 0x0000707F#32 = 0x00002023#32 := by decide
theorem witness_words_alu_immediate : 0x80000093#32 &&& 0x0000707F#32 = 0x00000013#32 ∧ 0xFFF12093#32 &&& 0x0000707F#32 = 0x00002013#32 ∧ 0xFFF13093#32 &&& 0x0000707F#32 = 0x00003013#32 ∧ 0x55514093#32 &&& 0x0000707F#32 = 0x00004013#32 ∧ 0x70016093#32 &&& 0x0000707F#32 = 0x00006013#32 ∧ 0x0FF17093#32 &&& 0x0000707F#32 = 0x00007013#32 ∧ 0x01F11093#32 &&& 0xFE00707F#32 = 0x00001013#32 ∧ 0x00415093#32 &&& 0xFE00707F#32 = 0x00005013#32 ∧ 0x40415093#32 &&& 0xFE00707F#32 = 0x40005013#32 := by decide
theorem witness_words_alu_register : 0x002081B3#32 &&& 0xFE00707F#32 = 0x00000033#32 ∧ 0x402081B3#32 &&& 0xFE00707F#32 = 0x40000033#32 ∧ 0x002091B3#32 &&& 0xFE00707F#32 = 0x00001033#32 ∧ 0x0020A1B3#32 &&& 0xFE00707F#32 = 0x00002033#32 ∧ 0x0020B1B3#32 &&& 0xFE00707F#32 = 0x00003033#32 ∧ 0x0020C1B3#32 &&& 0xFE00707F#32 = 0x00004033#32 ∧ 0x0020D1B3#32 &&& 0xFE00707F#32 = 0x00005033#32 ∧ 0x4020D1B3#32 &&& 0xFE00707F#32 = 0x40005033#32 ∧ 0x0020E1B3#32 &&& 0xFE00707F#32 = 0x00006033#32 ∧ 0x0020F1B3#32 &&& 0xFE00707F#32 = 0x00007033#32 := by decide
theorem witness_words_system : 0x00000073#32 &&& 0xFFFFFFFF#32 = 0x00000073#32 ∧ 0x00100073#32 &&& 0xFFFFFFFF#32 = 0x00100073#32 ∧ 0x340312F3#32 &&& 0x0000707F#32 = 0x00001073#32 ∧ 0xF14022F3#32 &&& 0x0000707F#32 = 0x00002073#32 ∧ 0x300332F3#32 &&& 0x0000707F#32 = 0x00003073#32 ∧ 0x3401D2F3#32 &&& 0x0000707F#32 = 0x00005073#32 ∧ 0x300462F3#32 &&& 0x0000707F#32 = 0x00006073#32 ∧ 0x300472F3#32 &&& 0x0000707F#32 = 0x00007073#32 := by decide
theorem witness_words_fence : 0x8330000F#32 &&& 0x0000707F#32 = 0x0000000F#32 := by decide
theorem witness_branch_conditions : (at20 0 5#32 5#32).readReg 1 = (at20 0 5#32 5#32).readReg 2 ∧ (5#32 : Word) ≠ 6#32 ∧
    (0xFFFFFFFF#32 : Word).toInt < (1#32 : Word).toInt ∧ ¬ ((1#32 : Word).toInt < (0xFFFFFFFF#32 : Word).toInt) ∧
    (1#32 : Word).toNat < (0xFFFFFFFF#32 : Word).toNat ∧ ¬ ((0xFFFFFFFF#32 : Word).toNat < (1#32 : Word).toNat) := by decide
theorem witness_stores : (at20 0x0020A023 0xFE#32 0x12345678#32).mem.wf ∧
    legalAddr (at20 0x0020A023 0xFE#32 0x12345678#32).size 0xFF#32 = true ∧
    legalAddr (at20 0x0020A023 0xFE#32 0x12345678#32).size 0x100#32 = false := by decide
theorem witness_fence_modes : (at20 0x0330000F 0#32 0#32).cfg.fenceMode = .nop ∧ State.reset.cfg.fenceMode = .illegal := by decide
theorem witness_registerZero : (31 : Reg) ≠ 0 ∧ (1 : Reg) ≠ 0 := by decide
theorem witness_stepRuns : (at20 0xFFC0A283 0#32 0#32).halted = false ∧ pcAligned (at20 0xFFC0A283 0#32 0#32).pc = true ∧
    decode (at20 0xFFC0A283 0#32 0#32).cfg.fenceMode ((at20 0xFFC0A283 0#32 0#32).memValue (at20 0xFFC0A283 0#32 0#32).pc 4) =
      .instr (.lw 5 1 0xFFC#12) := by decide
theorem witness_halted : (State.reset.halt .ecall).halted = true ∧ Reachable (State.reset.halt .ecall) (State.reset.halt .ecall) :=
  ⟨rfl, .tick .start rfl⟩
theorem witness_pcAlignment : (State.reset.setPc 2#32).halted = false ∧ pcAligned (State.reset.setPc 2#32).pc = false ∧
    pcAligned (State.reset.setPc 1#32).pc = false ∧ pcAligned (State.reset.setPc 0xFFFFFFFF#32).pc = false ∧
    pcAligned (0xFFFFFFFC#32) = true := by decide
theorem witness_misaligning_step : (at20 0x00000163 0#32 0#32).halted = false ∧ pcAligned (at20 0x00000163 0#32 0#32).pc = true ∧
    answers (at20 0x00000163 0#32 0#32) (fun t => pcAligned t.pc = false) = true := by decide
theorem witness_unlisted_words : (opcodeOf 0x022081B3#32 = 0b0110011#7 ∧ funct7Of 0x022081B3#32 = 0b0000001#7) ∧
    (opcodeOf 0x402091B3#32 = 0b0110011#7 ∧ funct7Of 0x402091B3#32 = 0b0100000#7 ∧ funct3Of 0x402091B3#32 = 0b001#3) ∧
    (opcodeOf 0x40411093#32 = 0b0010011#7 ∧ funct3Of 0x40411093#32 = 0b001#3 ∧ funct7Of 0x40411093#32 ≠ 0b0000000#7) ∧
    (opcodeOf 0x20415093#32 = 0b0010011#7 ∧ funct3Of 0x20415093#32 = 0b101#3 ∧ funct7Of 0x20415093#32 = 0b0010000#7) ∧
    (opcodeOf 0x0000B283#32 = 0b0000011#7 ∧ funct3Of 0x0000B283#32 = 0b011#3) ∧ funct3Of 0x0000E283#32 = 0b110#3 ∧ funct3Of 0x0000F283#32 = 0b111#3 ∧
    (opcodeOf 0x0020B023#32 = 0b0100011#7 ∧ 3 ≤ (funct3Of 0x0020B023#32).toNat) := by decide
theorem witness_unlisted_states : (at20 0x022081B3 0#32 0#32).halted = false ∧ pcAligned (at20 0x022081B3 0#32 0#32).pc = true ∧
    (at20 0x022081B3 0#32 0#32).memValue (at20 0x022081B3 0#32 0#32).pc 4 = 0x022081B3#32 ∧
    (at20 0x0020B023 0#32 0#32).memValue 0x20#32 4 = 0x0020B023#32 := by decide
theorem witness_illegalWord : State.reset.halted = false ∧ pcAligned State.reset.pc = true ∧
    (∀ r ∈ rowsOf State.reset.cfg.fenceMode, r.accepts (State.reset.memValue State.reset.pc 4) = false) := by decide
theorem witness_fetchOutside : pcAligned (State.reset.setPc 0x100#32).pc = true ∧ (State.reset.setPc 0x100#32).halted = false ∧
    legalAddr (State.reset.setPc 0x100#32).size 0x100#32 = false ∧ legalAddr (State.reset.setPc 0xFC#32).size 0xFC#32 = true ∧
    pcAligned (State.reset.setPc 0xFC#32).pc = true := by decide
theorem witness_preciseHalts : (halts (State.reset.setPc 2#32)).isSome = true ∧ (halts (at20 0x00000073 0#32 0#32)).isSome = true ∧
    (halts (at20 0x00100073 0#32 0#32)).isSome = true ∧ (halts (at20 0xFFFFFFFF 0#32 0#32)).isSome = true := by decide
theorem witness_counter : State.reset.halted = false ∧ (State.reset.halt .ebreak).halted = true ∧
    step (State.reset.halt .ebreak) = .next (State.reset.halt .ebreak) := ⟨rfl, rfl, rfl⟩
theorem witness_traceFlags : answers (at20 0x00000013 0#32 0#32) (fun t => t.insnCount = 1) = true := by decide
theorem witness_logGrows : ∃ t, step (State.reset.setPc 0x100#32) = .next t ∧ t.diagLog.Perm [0x100#32, 0x101#32, 0x102#32, 0x103#32] :=
  ⟨_, rfl, (arrangeWarnings_perm _ _).trans (by decide)⟩
theorem witness_programSees : (at20 0x00000013 1#32 2#32).mem.wf ∧
    SameToProgram (at20 0x00000013 1#32 2#32)
      { (at20 0x00000013 1#32 2#32).setTrace true true with insnCount := 9, diagLog := [0x100#32], orderCount := 5 } ∧
    answers (at20 0x00000013 1#32 2#32) (fun _ => true) = true :=
  ⟨by decide, ⟨fun _ => rfl, rfl, fun _ => rfl, rfl, rfl, rfl⟩, by decide⟩
theorem witness_legalAddresses : 0xFFFFFFF0 ≤ (0xFFFFFFF0#32 : Word).toNat ∧ 0xFFFFFFF0 ≤ (0xFFFFFFFF#32 : Word).toNat := by decide
theorem witness_bytes : legalAddr State.reset.size 0#32 = true ∧ legalAddr State.reset.size 0xFF#32 = true ∧
    legalAddr State.reset.size 0x100#32 = false ∧ legalAddr State.reset.size 0xFFFFFFFF#32 = false ∧ State.reset.mem.wf ∧ (0#32 : Word) ≠ 0xFF#32 := by decide
theorem witness_roundTrip : State.reset.mem.wf ∧ (∀ i, i < 4 → legalAddr State.reset.size (0xFC#32 + BitVec.ofNat 32 i) = true) := by decide
theorem witness_canonicalMemory : Memory.wf [(0x40, 0x78#8), (0x43, 0#8)] ∧ Memory.wf [] ∧
    (∀ a, Memory.getByte [(0x40, 0x78#8), (0x43, 0#8)] a = Memory.getByte [(0x40, 0x78#8), (0x43, 0#8)] a) := ⟨by decide, by decide, fun _ => rfl⟩
/-- SW exactly over the next instruction, SH over its last byte and beyond, SB apart from it. -/
theorem witness_storeSeen : (at20 0x0020A223 0x20#32 0x73#32).mem.wf ∧
    (at20 0x0020A223 0x20#32 0x73#32).effAddr 1 4#12 = (at20 0x0020A223 0x20#32 0x73#32).advance.pc ∧
    (∀ i, i < 4 → legalAddr (at20 0x0020A223 0x20#32 0x73#32).size ((at20 0x0020A223 0x20#32 0x73#32).advance.pc + BitVec.ofNat 32 i) = true) ∧
    (at20 0 0x20#32 0#32).advance.pc + 3#32 = (at20 0 0x20#32 0#32).effAddr 1 7#12 + 0#32 ∧
    (∀ k, k < 3 → ∀ j, j < 2 → (at20 0 0x20#32 0#32).advance.pc + BitVec.ofNat 32 k ≠ (at20 0 0x20#32 0#32).effAddr 1 7#12 + BitVec.ofNat 32 j) ∧
    (∀ k, k < 4 → (at20 0 0x40#32 0#32).advance.pc + BitVec.ofNat 32 k ≠ (at20 0 0x40#32 0#32).effAddr 1 0#12 + 0#32) := by decide
/-- The next instruction outside memory: its illegal bytes are not stored. -/
theorem witness_storeSeen_illegal : (State.reset.setPc 0xFC#32).advance.pc + 0#32 = (State.reset.setPc 0xFC#32).effAddr 0 0x100#12 + 0#32 ∧
    legalAddr State.reset.size 0x100#32 = false ∧ (State.reset.setPc 0xFC#32).mem.wf := by decide
theorem test_sh_seen_by_fetch : answers (at20 0x002093A3 0x20#32 0x1234#32) (fun t => t.fetchWord = 0x34A5A5A5#32) = true := by decide

/-- A running state that is not the reset state, for the invariant: `x1 = 0x40`, pc `0x20`, one warning logged. -/
def running : State := { (State.reset.writeReg 1 0x40#32).setPc 0x20#32 with mem := [(0x20, 0x13#8), (0x21, 0#8), (0x22, 0#8), (0x23, 0#8)], diagLog := [0x100#32] }

theorem witness_invariant : MachineInv running ∧ answers running (fun t => t.pc = 0x24#32) = true :=
  ⟨⟨by decide, by decide, by rfl, ⟨fun _ => rfl, fun _ => rfl⟩, rfl, fun h => (by cases h), fun a ha => by rw [List.mem_singleton.1 ha]; decide⟩, by decide⟩

/-- The image of scenario S2, an ECALL, loaded with both trace flags set. -/
def ecallStart : State := { ((State.construct Config.default).setTrace true true).hartReset with mem := [(0, 0x73#8), (1, 0#8), (2, 0#8), (3, 0#8)] }

theorem witness_run : RunStart ecallStart ∧ Reachable ecallStart ecallStart ∧ halts ecallStart = some (.ecall, 0#32, 1) :=
  ⟨⟨Config.default, [0x73#8, 0#8, 0#8, 0#8], true, true, _, rfl, rfl⟩, .start, by decide⟩
theorem witness_image : ([0x13#8, 0#8, 0#8, 0#8] : List Byte).length ≤ memSize Config.default ∧
    (List.replicate 16 0#8 : List Byte).length ≤ memSize { memSizeCfg := ⟨8, by decide⟩, fenceMode := .illegal } ∧
    memSize { memSizeCfg := ⟨8, by decide⟩, fenceMode := .illegal } < (List.replicate 17 0#8 : List Byte).length := by decide
theorem witness_limit : (3 : Nat) ≠ 0 ∧ State.reset.insnCount ≤ 3 ∧ ({ State.reset with insnCount := 3 } : State).insnCount ≤ 3 := by decide
theorem witness_unlimited : (∃ t, runLoop 0 2 (at20 0x00000063 0#32 0#32) = .next t ∧ t.halted = false ∧ t.insnCount = 2) ∧
    (∃ t, runLoop 0 2 ecallStart = .next t ∧ t.halted = true ∧ t.insnCount = 1) := ⟨⟨_, rfl, rfl, rfl⟩, ⟨_, rfl, rfl, rfl⟩⟩
theorem test_endedByProgram : answers ecallStart endedByProgram = true := by decide

end Sys2Proof.Tests
end

section
/-! SUPPORT. The register file (R11, R12): what a read returns, and what a write changes and leaves alone. -/

namespace Sys2Proof.Machine

/-- A register other than x0 reads what it holds (R11). -/
theorem readReg_of_ne_zero (s : State) {r : Reg} (hr : r ≠ 0) : s.readReg r = s.regs[r.val] :=
  if_neg hr

/-- After a write to a register other than x0, that register reads the value and every other one, x0 among them, what it
read before (R12). -/
theorem writeReg_readReg_of_ne_zero (s : State) {rd : Reg} (r : Reg) (v : Word) (hrd : rd ≠ 0) :
    (s.writeReg rd v).readReg r = if r = rd then v else s.readReg r := by
  rw [writeReg_readReg]
  by_cases hr : r = 0
  · subst hr
    rw [if_pos rfl, if_neg hrd.symm, readReg_zero]
  · rw [if_neg hr]

/-- What a register write leaves alone, whichever register it names (R12). -/
theorem writeReg_frame (s : State) (rd : Reg) (v : Word) :
    (s.writeReg rd v).pc = s.pc ∧ MemKept s (s.writeReg rd v) ∧ LogKept s (s.writeReg rd v) ∧
      ControlKept s (s.writeReg rd v) :=
  ⟨writeReg_pc s rd v, writeReg_byteAt s rd v, writeReg_diagLog s rd v, by simp [ControlKept, SetupKept]⟩

/-- Settles O25, from the rules for reading and writing one register. -/
theorem registerZeroIsHardwired : Obligations.RegisterZeroIsHardwired :=
  ⟨fun s => ⟨readReg_zero s, fun _ => readReg_of_ne_zero s⟩, writeReg_zero,
    fun s _ r v => writeReg_readReg_of_ne_zero s r v, writeReg_frame⟩

end Sys2Proof.Machine
end

section
/-! SUPPORT. Byte order (R30): an access of `m + n` bytes is the access of its low `m` bytes and that of the `n` bytes above them,
for every `m` and `n`. -/

namespace Sys2Proof.Machine

/-- A read splits at any byte, the low part at the lower address (R35). -/
theorem memValue_add (s : State) (a : Word) (m n : Nat) :
    s.memValue a (m + n) = s.memValue a m ||| s.memValue (a + BitVec.ofNat 32 m) n <<< (8 * m) := by
  induction n with
  | zero =>
    have nothing : ∀ x, s.memValue x 0 = 0#32 := fun _ => rfl
    simp [nothing]
  | succ n ih =>
    rw [← Nat.add_assoc, memValue_succ, memValue_succ, ih, BitVec.shiftLeft_or_distrib, ← BitVec.shiftLeft_add,
      BitVec.or_assoc, BitVec.ofNat_add, BitVec.add_assoc, ← Nat.mul_add, Nat.add_comm n m]

/-- A word read is its four byte reads, the lowest address lowest. -/
theorem memValue_word_bytes (s : State) (a : Word) :
    s.memValue a 4 = s.memValue a 1 ||| s.memValue (a + 1#32) 1 <<< 8 ||| s.memValue (a + 2#32) 1 <<< 16 |||
      s.memValue (a + 3#32) 1 <<< 24 := by
  calc s.memValue a 4
      = s.memValue a 3 ||| s.memValue (a + 3#32) 1 <<< 24 := memValue_add s a 3 1
    _ = s.memValue a 2 ||| s.memValue (a + 2#32) 1 <<< 16 ||| s.memValue (a + 3#32) 1 <<< 24 :=
        congrArg (· ||| _) (memValue_add s a 2 1)
    _ = _ := congrArg (· ||| _ ||| _) (memValue_add s a 1 1)

/-- Byte `m + n` of a value is byte `n` of what is left above its low `m` bytes. -/
theorem extract_byte_add (v : Word) (m n : Nat) :
    v.extractLsb' (8 * (m + n)) 8 = (v >>> (8 * m)).extractLsb' (8 * n) 8 := by
  apply BitVec.eq_of_getLsbD_eq
  intro i hi
  simp [hi, Nat.mul_add, Nat.add_assoc]

/-- A write splits at any byte, the low part first and at the lower address (R36). -/
theorem writeBytes_add (size : Nat) (a v : Word) (m n : Nat) (mem : Memory) :
    writeBytes size a v (m + n) mem =
      writeBytes size (a + BitVec.ofNat 32 m) (v >>> (8 * m)) n (writeBytes size a v m mem) := by
  induction n with
  | zero => rfl
  | succ n ih => rw [← Nat.add_assoc, writeBytes, writeBytes, ih, extract_byte_add, BitVec.ofNat_add, BitVec.add_assoc]

/-- The memory after a `MemWrite` is that after the writes of its two parts, split at any byte. -/
theorem memWrite_add_mem (s : State) (a v : Word) (m n : Nat) :
    (s.memWrite a (m + n) v).mem =
      ((s.memWrite a m v).memWrite (a + BitVec.ofNat 32 m) n (v >>> (8 * m))).mem := by
  simp only [memWrite_mem, memWrite_size]
  exact writeBytes_add ..

/-- Settles O42: each clause is the split of a read or a write, of one byte and one or of two bytes and two; the fetch is a word
read at the pc. -/
theorem memoryIsLittleEndian : Obligations.MemoryIsLittleEndian :=
  ⟨fun s a => memValue_add s a 1 1, fun s a => memValue_add s a 2 2, fun s => memValue_word_bytes s s.pc,
    fun s a v => memWrite_add_mem s a v 1 1, fun s a v => memWrite_add_mem s a v 2 2⟩

end Sys2Proof.Machine
end

section
/-! SUPPORT. The opcodes OP, OP-IMM, LOAD and STORE in the decoder (R61 to R65): the words of each go to the family's own decoder,
and which of their function codes no row lists. -/

namespace Sys2Proof

variable {w : Word}

theorem decode_op (mode : FenceMode) (h : opcodeOf w = 0b0110011#7) : decode mode w = decodeOp w := by
  simp [decode, h]

theorem decode_opImm (mode : FenceMode) (h : opcodeOf w = 0b0010011#7) : decode mode w = decodeOpImm w := by
  simp [decode, h]

theorem decode_load (mode : FenceMode) (h : opcodeOf w = 0b0000011#7) : decode mode w = decodeLoad w := by
  simp [decode, h]

theorem decode_store (mode : FenceMode) (h : opcodeOf w = 0b0100011#7) : decode mode w = decodeStore w := by
  simp [decode, h]

/-! ## The rows of OP for arithmetic, comparison and logic (R62) -/

theorem decodeOp_add (h3 : funct3Of w = 0b000#3) (h7 : funct7Of w = 0b0000000#7) :
    decodeOp w = .instr (.add (rdOf w) (rs1Of w) (rs2Of w)) := by
  simp [decodeOp, h3, h7]

theorem decodeOp_sub (h3 : funct3Of w = 0b000#3) (h7 : funct7Of w = 0b0100000#7) :
    decodeOp w = .instr (.sub (rdOf w) (rs1Of w) (rs2Of w)) := by
  simp [decodeOp, h3, h7]

theorem decodeOp_slt (h3 : funct3Of w = 0b010#3) (h7 : funct7Of w = 0b0000000#7) :
    decodeOp w = .instr (.slt (rdOf w) (rs1Of w) (rs2Of w)) := by
  simp [decodeOp, h3, h7]

theorem decodeOp_sltu (h3 : funct3Of w = 0b011#3) (h7 : funct7Of w = 0b0000000#7) :
    decodeOp w = .instr (.sltu (rdOf w) (rs1Of w) (rs2Of w)) := by
  simp [decodeOp, h3, h7]

theorem decodeOp_xor (h3 : funct3Of w = 0b100#3) (h7 : funct7Of w = 0b0000000#7) :
    decodeOp w = .instr (.xor (rdOf w) (rs1Of w) (rs2Of w)) := by
  simp [decodeOp, h3, h7]

theorem decodeOp_or (h3 : funct3Of w = 0b110#3) (h7 : funct7Of w = 0b0000000#7) :
    decodeOp w = .instr (.or (rdOf w) (rs1Of w) (rs2Of w)) := by
  simp [decodeOp, h3, h7]

theorem decodeOp_and (h3 : funct3Of w = 0b111#3) (h7 : funct7Of w = 0b0000000#7) :
    decodeOp w = .instr (.and (rdOf w) (rs1Of w) (rs2Of w)) := by
  simp [decodeOp, h3, h7]

/-! ## Function codes no row lists -/

/-- An OP word that decodes has funct7 zero, or is SUB or SRA (R62). -/
theorem funct7Of_of_decodeOp {i : Instr} (h : decodeOp w = .instr i) :
    funct7Of w = 0b0000000#7 ∨
      (funct7Of w = 0b0100000#7 ∧ (funct3Of w = 0b000#3 ∨ funct3Of w = 0b101#3)) := by
  unfold decodeOp at h
  (repeat' split at h) <;> simp_all

/-- OP with a funct7 that no row has for its funct3 (R92). -/
theorem decodeOp_unlisted (h7 : funct7Of w ≠ 0b0000000#7)
    (h : ¬ (funct7Of w = 0b0100000#7 ∧ (funct3Of w = 0b000#3 ∨ funct3Of w = 0b101#3))) :
    ∃ why, decodeOp w = .illegal why := by
  cases hd : decodeOp w with
  | illegal why => exact ⟨why, rfl⟩
  | instr i => exact absurd (funct7Of_of_decodeOp hd) (not_or.2 ⟨h7, h⟩)

/-- A left shift of OP-IMM has funct7 zero (R110). -/
theorem decodeOpImm_unlisted_left (h3 : funct3Of w = 0b001#3) (h7 : funct7Of w ≠ 0b0000000#7) :
    decodeOpImm w = .illegal .unknownFunct7 := by
  simp [decodeOpImm, h3, h7]

/-- A right shift of OP-IMM has the funct7 of SRLI or of SRAI (R110). -/
theorem decodeOpImm_unlisted_right (h3 : funct3Of w = 0b101#3) (h7 : funct7Of w ≠ 0b0000000#7)
    (h7' : funct7Of w ≠ 0b0100000#7) : decodeOpImm w = .illegal .unknownFunct7 := by
  -- `h7` and `h7'` are the side conditions of the last arm; `simp` finds them in the context
  simp only [decodeOpImm, h3]

/-- LOAD with funct3 011, 110 or 111 (R128). -/
theorem decodeLoad_unlisted (h3 : funct3Of w = 0b011#3 ∨ funct3Of w = 0b110#3 ∨ funct3Of w = 0b111#3) :
    decodeLoad w = .illegal .unknownFunct3 := by
  rcases h3 with h3 | h3 | h3 <;> simp [decodeLoad, h3]

/-- STORE with a funct3 above that of SW (R135). -/
theorem decodeStore_unlisted (h3 : 3 ≤ (funct3Of w).toNat) : decodeStore w = .illegal .unknownFunct3 := by
  unfold decodeStore
  split <;> simp_all

end Sys2Proof
end

section
/-! SUPPORT. The tick of a word the decoder rejects (R69, R182). -/

namespace Sys2Proof.Machine

/-- What a halt after the fetch changes: the halt, the count of the tick and the fetch's own warnings (R182, R184). -/
theorem halt_afterFetch_frame (s : State) (r : HaltReason) :
    HaltedWith r s (s.afterFetch.halt r) ∧ AccessLogged s.pc 4 s (s.afterFetch.halt r) ∧
      (s.afterFetch.halt r).insnCount = s.insnCount + 1 :=
  ⟨halt_frame s.afterFetch r, afterFetch_log s, rfl⟩

/-- A tick of a running hart that fetches a word the decoder rejects. -/
theorem step_of_illegal_word {s : State} (h : s.halted = false) (hp : pcAligned s.pc = true)
    (hd : ∃ why, decode s.cfg.fenceMode (s.memValue s.pc 4) = .illegal why) :
    ∃ t, step s = .next t ∧ HaltedWith .illegalInstruction s t ∧ AccessLogged s.pc 4 s t ∧ t.insnCount = s.insnCount + 1 :=
  have ⟨_, hf⟩ := hd
  ⟨_, step_illegal h hp hf, halt_afterFetch_frame s _⟩

/-- Settles O29: the decoder rejects each of the words, whatever FENCE_MODE is. -/
theorem unlistedFunctionCodesHalt : Obligations.UnlistedFunctionCodesHalt := by
  unfold Obligations.UnlistedFunctionCodesHalt
  rintro s w hrun hp rfl hw
  have rejected : ∃ why, decode s.cfg.fenceMode (s.memValue s.pc 4) = .illegal why := by
    rcases hw with ⟨hop, h7, h⟩ | ⟨hop, h3, h7⟩ | ⟨hop, h3, h7, h7'⟩ | ⟨hop, h3⟩ | ⟨hop, h3⟩
    · rw [decode_op _ hop]
      exact decodeOp_unlisted h7 h
    · exact ⟨_, (decode_opImm _ hop).trans (decodeOpImm_unlisted_left h3 h7)⟩
    · exact ⟨_, (decode_opImm _ hop).trans (decodeOpImm_unlisted_right h3 h7 h7')⟩
    · exact ⟨_, (decode_load _ hop).trans (decodeLoad_unlisted h3)⟩
    · exact ⟨_, (decode_store _ hop).trans (decodeStore_unlisted h3)⟩
  obtain ⟨t, hstep, ⟨hhalt, hreason, -, hregs, hmem, -⟩, hlog, -⟩ := step_of_illegal_word hrun hp rejected
  exact ⟨t, hstep, hhalt, hreason, hregs, hmem, hlog⟩

end Sys2Proof.Machine
end

section
/-! SUPPORT. The register-register instructions (R80): the shape of their rule, proved once, and the results of arithmetic,
comparison and logic. -/

namespace Sys2Proof.Machine

/-- An OP instruction meets its rule when its row has its function codes and its meaning writes back `value` of the two old
operands (R80). -/
theorem registerRule_of_writeBack {pattern : Word} {f3 : BitVec 3} {f7 : BitVec 7} {mk : Reg → Reg → Reg → Instr}
    {result : Word → Word → Word → Prop} (value : Word → Word → Word)
    (hrow : opcodeOf pattern = 0b0110011#7 ∧ funct3Of pattern = f3 ∧ funct7Of pattern = f7)
    (hdecode : ∀ {w : Word}, funct3Of w = f3 → funct7Of w = f7 → decodeOp w = .instr (mk (rdOf w) (rs1Of w) (rs2Of w)))
    (hexec : ∀ s rd rs1 rs2, exec (mk rd rs1 rs2) s = .next (s.writeBack rd (value (s.readReg rs1) (s.readReg rs2))))
    (hresult : ∀ a b, result a b (value a b)) : RegisterRule pattern mk result := by
  obtain ⟨hop, h3, h7⟩ := hrow
  refine ⟨fun mode w hw => ?_, fun rd rs1 rs2 s =>
    ⟨_, _, hexec s rd rs1 rs2, hresult _ _, writeBack_frame s rd _⟩⟩
  obtain ⟨wop, w3, w7⟩ := fields_match7 hw
  exact (decode_op mode (wop.trans hop)).trans (hdecode (w3.trans h3) (w7.trans h7))

/-! ## Results as numbers -/

/-- A difference modulo 2^32 (R83). -/
theorem toNat_sub_emod (a b : Word) : ((a - b).toNat : Int) = ((a.toNat : Int) - b.toNat) % 2 ^ 32 := by
  have := b.isLt
  rw [BitVec.toNat_sub]
  omega

theorem boolWord_toNat (c : Bool) : (boolWord c).toNat = if c then 1 else 0 := by
  cases c <;> rfl

theorem boolWord_lessSigned_toNat (a b : Word) :
    (boolWord (lessSigned a b)).toNat = if a.toInt < b.toInt then 1 else 0 := by
  simp only [boolWord_toNat, lessSigned, decide_eq_true_eq]

theorem boolWord_lessUnsigned_toNat (a b : Word) :
    (boolWord (lessUnsigned a b)).toNat = if a.toNat < b.toNat then 1 else 0 := by
  simp only [boolWord_toNat, lessUnsigned, decide_eq_true_eq]

/-! ## The rules -/

/-- Settles O8: the four rows, with their results as numbers. -/
theorem registerArithmetic : Obligations.RegisterArithmetic :=
  ⟨registerRule_of_writeBack (· + ·) (by decide) decodeOp_add exec_add BitVec.toNat_add,
    registerRule_of_writeBack (· - ·) (by decide) decodeOp_sub exec_sub toNat_sub_emod,
    registerRule_of_writeBack _ (by decide) decodeOp_slt exec_slt boolWord_lessSigned_toNat,
    registerRule_of_writeBack _ (by decide) decodeOp_sltu exec_sltu boolWord_lessUnsigned_toNat⟩

/-- Settles O10: the three rows, with their results bit by bit. -/
theorem registerLogic : Obligations.RegisterLogic :=
  ⟨registerRule_of_writeBack (· ^^^ ·) (by decide) decodeOp_xor exec_xor fun _ _ _ => BitVec.getLsbD_xor,
    registerRule_of_writeBack (· ||| ·) (by decide) decodeOp_or exec_or fun _ _ _ => BitVec.getLsbD_or,
    registerRule_of_writeBack (· &&& ·) (by decide) decodeOp_and exec_and fun _ _ _ => BitVec.getLsbD_and⟩

end Sys2Proof.Machine
end

section
/-! SUPPORT. The register-immediate instructions (R100): the shape of their rule, proved once for every row without a shift amount,
and the results of arithmetic, comparison and logic. -/

namespace Sys2Proof

variable {w : Word}

/-! ## The rows of OP-IMM for arithmetic, comparison and logic (R63) -/

theorem decodeOpImm_addi (h3 : funct3Of w = 0b000#3) : decodeOpImm w = .instr (.addi (rdOf w) (rs1Of w) (immIOf w)) := by
  simp [decodeOpImm, h3]

theorem decodeOpImm_slti (h3 : funct3Of w = 0b010#3) : decodeOpImm w = .instr (.slti (rdOf w) (rs1Of w) (immIOf w)) := by
  simp [decodeOpImm, h3]

theorem decodeOpImm_sltiu (h3 : funct3Of w = 0b011#3) : decodeOpImm w = .instr (.sltiu (rdOf w) (rs1Of w) (immIOf w)) := by
  simp [decodeOpImm, h3]

theorem decodeOpImm_xori (h3 : funct3Of w = 0b100#3) : decodeOpImm w = .instr (.xori (rdOf w) (rs1Of w) (immIOf w)) := by
  simp [decodeOpImm, h3]

theorem decodeOpImm_ori (h3 : funct3Of w = 0b110#3) : decodeOpImm w = .instr (.ori (rdOf w) (rs1Of w) (immIOf w)) := by
  simp [decodeOpImm, h3]

theorem decodeOpImm_andi (h3 : funct3Of w = 0b111#3) : decodeOpImm w = .instr (.andi (rdOf w) (rs1Of w) (immIOf w)) := by
  simp [decodeOpImm, h3]

end Sys2Proof

namespace Sys2Proof.Machine

/-- An OP-IMM instruction meets its rule when its row has its funct3 and its meaning writes back `value` of the old operand and
the sign-extended immediate (R100). -/
theorem immediateRule_of_writeBack {pattern : Word} {f3 : BitVec 3} {mk : Reg → Reg → BitVec 12 → Instr}
    {result : Word → BitVec 12 → Word → Prop} (value : Word → Word → Word)
    (hrow : opcodeOf pattern = 0b0010011#7 ∧ funct3Of pattern = f3)
    (hdecode : ∀ {w : Word}, funct3Of w = f3 → decodeOpImm w = .instr (mk (rdOf w) (rs1Of w) (immIOf w)))
    (hexec : ∀ s rd rs1 imm, exec (mk rd rs1 imm) s = .next (s.writeBack rd (value (s.readReg rs1) (imm12 imm))))
    (hresult : ∀ a imm, result a imm (value a (imm12 imm))) : ImmediateRule pattern mk result := by
  obtain ⟨hop, h3⟩ := hrow
  refine ⟨fun mode w hw => ?_, fun rd rs1 imm s =>
    ⟨_, _, hexec s rd rs1 imm, hresult _ _, writeBack_frame s rd _⟩⟩
  obtain ⟨wop, w3⟩ := fields_match3 hw
  exact (decode_opImm mode (wop.trans hop)).trans (hdecode (w3.trans h3))

/-! ## Results -/

/-- The sum with a sign-extended immediate, modulo 2^32 (R101). -/
theorem add_imm12_toNat (a : Word) (imm : BitVec 12) :
    ((a + imm12 imm).toNat : Int) = (a.toNat + imm.toInt) % 2 ^ 32 := by
  rw [toNat_add_signed, imm12_toInt]

/-- The signed comparison with a sign-extended immediate (R102). -/
theorem boolWord_lessSigned_imm12_toNat (a : Word) (imm : BitVec 12) :
    (boolWord (lessSigned a (imm12 imm))).toNat = if a.toInt < imm.toInt then 1 else 0 := by
  rw [boolWord_lessSigned_toNat, imm12_toInt]

/-- The unsigned comparison with a sign-extended immediate: the immediate modulo 2^32, not the field (R103). -/
theorem boolWord_lessUnsigned_imm12_toNat (a : Word) (imm : BitVec 12) :
    (boolWord (lessUnsigned a (imm12 imm))).toNat = if (a.toNat : Int) < imm.toInt % 2 ^ 32 then 1 else 0 := by
  have unsignedImm : imm.toInt % 2 ^ 32 = ((imm12 imm).toNat : Int) := by
    rw [toNat_eq_toInt_emod, imm12_toInt]
  simp only [boolWord_lessUnsigned_toNat, unsignedImm, Int.ofNat_lt]

/-- A bitwise operation with a sign-extended immediate combines bit by bit, from bit 11 up with the immediate's sign bit (R104 to R106). -/
theorem bitwise_imm12_bit {value : Word → Word → Word} (op : Bool → Bool → Bool)
    (hvalue : ∀ a b k, (value a b).getLsbD k = op (a.getLsbD k) (b.getLsbD k))
    (a : Word) (imm : BitVec 12) (k : Nat) (hk : k < 32) :
    (value a (imm12 imm)).getLsbD k = op (a.getLsbD k) (imm.getLsbD (min k 11)) := by
  rw [hvalue, imm12_bit imm k hk]

/-! ## The rules -/

/-- Settles O11: the three rows, with their results as numbers. -/
theorem immediateArithmetic : Obligations.ImmediateArithmetic :=
  ⟨immediateRule_of_writeBack (· + ·) (by decide) decodeOpImm_addi exec_addi add_imm12_toNat,
    immediateRule_of_writeBack (fun a b => boolWord (lessSigned a b)) (by decide) decodeOpImm_slti exec_slti
      boolWord_lessSigned_imm12_toNat,
    immediateRule_of_writeBack (fun a b => boolWord (lessUnsigned a b)) (by decide) decodeOpImm_sltiu exec_sltiu
      boolWord_lessUnsigned_imm12_toNat⟩

/-- Settles O12: the three rows, with their results bit by bit. -/
theorem immediateLogic : Obligations.ImmediateLogic :=
  ⟨immediateRule_of_writeBack (· ^^^ ·) (by decide) decodeOpImm_xori exec_xori
      (bitwise_imm12_bit Bool.xor fun _ _ _ => BitVec.getLsbD_xor),
    immediateRule_of_writeBack (· ||| ·) (by decide) decodeOpImm_ori exec_ori
      (bitwise_imm12_bit Bool.or fun _ _ _ => BitVec.getLsbD_or),
    immediateRule_of_writeBack (· &&& ·) (by decide) decodeOpImm_andi exec_andi
      (bitwise_imm12_bit Bool.and fun _ _ _ => BitVec.getLsbD_and)⟩

end Sys2Proof.Machine
end

section
/-! SUPPORT. The upper-immediate instructions (R56): the shape of their rule, proved once, and the operand of LUI. -/

namespace Sys2Proof

/-- A word with LUI's opcode decodes to LUI (R61). -/
theorem decode_lui {w : Word} (mode : FenceMode) (h : opcodeOf w = 0b0110111#7) :
    decode mode w = .instr (.lui (rdOf w) (immUOf w)) := by
  simp [decode, h]

end Sys2Proof

namespace Sys2Proof.Machine

/-- An upper-immediate instruction meets its rule when its row has its opcode and its meaning writes back `value` of the old pc
and the upper immediate. -/
theorem upperRule_of_writeBack {pattern : Word} {op : BitVec 7} {mk : Reg → BitVec 20 → Instr}
    {result : Word → BitVec 20 → Word → Prop} (value : Word → Word → Word) (hrow : opcodeOf pattern = op)
    (hdecode : ∀ {w : Word} (mode : FenceMode), opcodeOf w = op → decode mode w = .instr (mk (rdOf w) (immUOf w)))
    (hexec : ∀ s rd imm20, exec (mk rd imm20) s = .next (s.writeBack rd (value s.pc (immUpper imm20))))
    (hresult : ∀ pc imm20, result pc imm20 (value pc (immUpper imm20))) : UpperRule pattern mk result :=
  ⟨fun mode _ hw => hdecode mode ((opcodeOf_match hw).trans hrow),
    fun rd imm20 s => ⟨_, _, hexec s rd imm20, hresult _ _, writeBack_frame s rd _⟩⟩

/-! ## The operand (R56) -/

/-- Bit `k` of the upper immediate of a word: the word's own bit from bit 12 up, 0 below. -/
theorem immUpper_immUOf_bit (w : Word) (k : Nat) (hk : k < 32) :
    (immUpper (immUOf w)).getLsbD k = if k < 12 then false else w.getLsbD k := by
  rw [immUpper, immUOf, getLsbD_place, BitVec.getLsbD_extractLsb']
  split
  case isTrue below => simp [below]
  case isFalse above => simp [hk, Nat.not_lt.mp above, show k - 12 < 20 by omega]

/-- The upper immediate of a word is the word with its low twelve bits cleared. -/
theorem immUpper_immUOf (w : Word) : immUpper (immUOf w) = w &&& 0xFFFFF000#32 := by
  have mask : 0xFFFFF000#32 = BitVec.allOnes 32 <<< 12 := by decide
  apply BitVec.eq_of_getLsbD_eq
  intro k hk
  rw [immUpper_immUOf_bit w k hk, mask, BitVec.getLsbD_and, BitVec.getLsbD_shiftLeft, BitVec.getLsbD_allOnes]
  split
  case isTrue below => simp [below]
  case isFalse above => simp [hk, above, show k - 12 < 32 by omega]

/-! ## The rule -/

/-- Settles O14: LUI writes back its operand, which does not depend on the pc. -/
theorem loadUpperImmediate : Obligations.LoadUpperImmediate :=
  ⟨upperRule_of_writeBack (fun _ imm => imm) (by decide) decode_lui exec_lui fun _ => immUpper_toNat, immUpper_immUOf⟩

end Sys2Proof.Machine
end

section
/-! SUPPORT. Halted is terminal (R188). -/

namespace Sys2Proof.Machine

/-- Ticks lead a halted hart nowhere else. -/
theorem reachable_of_halted {s t : State} (hs : s.halted = true) (hr : Reachable s t) : t = s := by
  induction hr with
  | start => rfl
  | tick _ hstep ih =>
    rw [ih, step_halted hs] at hstep
    cases hstep
    rfl

/-- Settles O27: a halted hart's ticks lead nowhere, by induction on the run; the reset sets the three fields. -/
theorem haltedIsTerminal : Obligations.HaltedIsTerminal :=
  ⟨fun _ _ => reachable_of_halted, fun s => ⟨hartReset_halted s, hartReset_pc s, hartReset_haltReason s⟩⟩

end Sys2Proof.Machine
end

section
/-! SUPPORT. Alignment of the pc (R40, R181): the tick of a misaligned pc, and the ticks that make one. -/

namespace Sys2Proof.Machine

/-- What the halt of a misaligned pc changes: the halt and the count of the tick, there being no fetch (R181, R184). -/
theorem halt_countTick_frame (s : State) (r : HaltReason) :
    HaltedWith r s (s.countTick.halt r) ∧ LogKept s (s.countTick.halt r) ∧
      (s.countTick.halt r).insnCount = s.insnCount + 1 :=
  ⟨halt_frame s.countTick r, rfl, rfl⟩

/-- An aligned pc is even. -/
theorem even_of_pcAligned {p : Word} (h : pcAligned p = true) : p.getLsbD 0 = false := by
  rw [pcAligned_iff] at h
  rw [getLsbD_zero_iff]
  omega

/-- An even pc that is not aligned is 2 modulo 4. -/
theorem mod_four_of_even_of_not_pcAligned {p : Word} (he : p.getLsbD 0 = false) (h : pcAligned p = false) :
    p.toNat % 4 = 2 := by
  rw [getLsbD_zero_iff] at he
  rw [← Bool.not_eq_true, pcAligned_iff] at h
  omega

/-- A decoded instruction that makes an aligned pc misaligned is a control transfer, which halts nothing and leaves the pc even
(R15, R55, R57, R151). -/
theorem transfer_of_exec_misaligns {mode : FenceMode} {w : Word} {i : Instr} {u t : State} (hd : decode mode w = .instr i)
    (hu : pcAligned u.pc = true) (hexec : exec i u = .next t) (ht : pcAligned t.pc = false) :
    t.halted = u.halted ∧ t.pc.getLsbD 0 = false ∧
      i.mnemonic ∈ ["BEQ", "BNE", "BLT", "BGE", "BLTU", "BGEU", "JAL", "JALR"] := by
  rcases exec_pc hexec with hpc | ⟨-, hpc⟩ | ⟨hhalted, hmem, heven⟩
  · rw [hpc, pcAligned_add_four hu] at ht
    contradiction
  · rw [hpc, hu] at ht
    contradiction
  · exact ⟨hhalted, heven (decode_wellFormed hd) (even_of_pcAligned hu), hmem⟩

/-- A tick that makes an aligned pc misaligned runs a control transfer: no halt moves the pc. -/
theorem transfer_of_step_misaligns {s t : State} (hrun : s.halted = false) (hs : pcAligned s.pc = true)
    (hstep : step s = .next t) (ht : pcAligned t.pc = false) :
    t.pc.toNat % 4 = 2 ∧ t.halted = false ∧ ∃ i, decode s.cfg.fenceMode (s.memValue s.pc 4) = .instr i ∧
      i.mnemonic ∈ ["BEQ", "BNE", "BLT", "BGE", "BLTU", "BGEU", "JAL", "JALR"] := by
  cases hf : s.fetched with
  | illegal why =>
    rw [step_illegal hrun hs hf] at hstep
    cases hstep
    rw [halt_pc, afterFetch_pc, hs] at ht
    contradiction
  | instr i =>
    rw [step_instr hrun hs hf] at hstep
    obtain ⟨hhalted, heven, hmem⟩ := transfer_of_exec_misaligns (u := s.afterFetch) hf hs hstep ht
    exact ⟨mod_four_of_even_of_not_pcAligned heven ht, hhalted.trans hrun, i, hf, hmem⟩

/-- Settles O28: the tick of a misaligned pc, what makes an aligned one misaligned, the reset's pc 0 and the next address. -/
theorem pcAlignmentError : Obligations.PcAlignmentError :=
  ⟨fun s hrun hp => ⟨_, step_misaligned hrun hp, halt_countTick_frame s _⟩, fun _ _ => transfer_of_step_misaligns,
    fun s => (pcAligned_iff s.hartReset.pc).2 rfl, fun _ => pcAligned_add_four⟩

end Sys2Proof.Machine
end

section
/-! SUPPORT. The other opcodes in the decoder (R61, R66 to R68), the shifts of OP and OP-IMM (R62, R63), and the rows of LOAD, STORE,
BRANCH and SYSTEM (R64 to R67). -/

namespace Sys2Proof

section
variable {w : Word}

theorem decode_auipc (mode : FenceMode) (h : opcodeOf w = 0b0010111#7) :
    decode mode w = .instr (.auipc (rdOf w) (immUOf w)) := by
  simp [decode, h]

theorem decode_jal (mode : FenceMode) (h : opcodeOf w = 0b1101111#7) :
    decode mode w = .instr (.jal (rdOf w) (immJOf w)) := by
  simp [decode, h]

theorem decode_jalr (mode : FenceMode) (h : opcodeOf w = 0b1100111#7) (h3 : funct3Of w = 0b000#3) :
    decode mode w = .instr (.jalr (rdOf w) (rs1Of w) (immIOf w)) := by
  simp [decode, h, h3]

theorem decode_branch (mode : FenceMode) (h : opcodeOf w = 0b1100011#7) : decode mode w = decodeBranch w := by
  simp [decode, h]

theorem decode_miscMem (mode : FenceMode) (h : opcodeOf w = 0b0001111#7) : decode mode w = decodeMiscMem mode w := by
  simp [decode, h]

theorem decode_system (mode : FenceMode) (h : opcodeOf w = 0b1110011#7) : decode mode w = decodeSystem w := by
  simp [decode, h]

/-! ## Shifts (R62, R63) -/

theorem decodeOp_sll (h3 : funct3Of w = 0b001#3) (h7 : funct7Of w = 0b0000000#7) :
    decodeOp w = .instr (.sll (rdOf w) (rs1Of w) (rs2Of w)) := by
  simp [decodeOp, h3, h7]

theorem decodeOp_srl (h3 : funct3Of w = 0b101#3) (h7 : funct7Of w = 0b0000000#7) :
    decodeOp w = .instr (.srl (rdOf w) (rs1Of w) (rs2Of w)) := by
  simp [decodeOp, h3, h7]

theorem decodeOp_sra (h3 : funct3Of w = 0b101#3) (h7 : funct7Of w = 0b0100000#7) :
    decodeOp w = .instr (.sra (rdOf w) (rs1Of w) (rs2Of w)) := by
  simp [decodeOp, h3, h7]

theorem decodeOpImm_slli (h3 : funct3Of w = 0b001#3) (h7 : funct7Of w = 0b0000000#7) :
    decodeOpImm w = .instr (.slli (rdOf w) (rs1Of w) (shamtOf w)) := by
  simp [decodeOpImm, h3, h7]

theorem decodeOpImm_srli (h3 : funct3Of w = 0b101#3) (h7 : funct7Of w = 0b0000000#7) :
    decodeOpImm w = .instr (.srli (rdOf w) (rs1Of w) (shamtOf w)) := by
  simp [decodeOpImm, h3, h7]

theorem decodeOpImm_srai (h3 : funct3Of w = 0b101#3) (h7 : funct7Of w = 0b0100000#7) :
    decodeOpImm w = .instr (.srai (rdOf w) (rs1Of w) (shamtOf w)) := by
  simp [decodeOpImm, h3, h7]

/-! ## LOAD, STORE and BRANCH (R64 to R66) -/

theorem decodeLoad_lb (h3 : funct3Of w = 0b000#3) : decodeLoad w = .instr (.lb (rdOf w) (rs1Of w) (immIOf w)) := by
  simp [decodeLoad, h3]

theorem decodeLoad_lh (h3 : funct3Of w = 0b001#3) : decodeLoad w = .instr (.lh (rdOf w) (rs1Of w) (immIOf w)) := by
  simp [decodeLoad, h3]

theorem decodeLoad_lw (h3 : funct3Of w = 0b010#3) : decodeLoad w = .instr (.lw (rdOf w) (rs1Of w) (immIOf w)) := by
  simp [decodeLoad, h3]

theorem decodeLoad_lbu (h3 : funct3Of w = 0b100#3) : decodeLoad w = .instr (.lbu (rdOf w) (rs1Of w) (immIOf w)) := by
  simp [decodeLoad, h3]

theorem decodeLoad_lhu (h3 : funct3Of w = 0b101#3) : decodeLoad w = .instr (.lhu (rdOf w) (rs1Of w) (immIOf w)) := by
  simp [decodeLoad, h3]

theorem decodeStore_sb (h3 : funct3Of w = 0b000#3) : decodeStore w = .instr (.sb (rs1Of w) (rs2Of w) (immSOf w)) := by
  simp [decodeStore, h3]

theorem decodeStore_sh (h3 : funct3Of w = 0b001#3) : decodeStore w = .instr (.sh (rs1Of w) (rs2Of w) (immSOf w)) := by
  simp [decodeStore, h3]

theorem decodeStore_sw (h3 : funct3Of w = 0b010#3) : decodeStore w = .instr (.sw (rs1Of w) (rs2Of w) (immSOf w)) := by
  simp [decodeStore, h3]

theorem decodeBranch_beq (h3 : funct3Of w = 0b000#3) : decodeBranch w = .instr (.beq (rs1Of w) (rs2Of w) (immBOf w)) := by
  simp [decodeBranch, h3]

theorem decodeBranch_bne (h3 : funct3Of w = 0b001#3) : decodeBranch w = .instr (.bne (rs1Of w) (rs2Of w) (immBOf w)) := by
  simp [decodeBranch, h3]

theorem decodeBranch_blt (h3 : funct3Of w = 0b100#3) : decodeBranch w = .instr (.blt (rs1Of w) (rs2Of w) (immBOf w)) := by
  simp [decodeBranch, h3]

theorem decodeBranch_bge (h3 : funct3Of w = 0b101#3) : decodeBranch w = .instr (.bge (rs1Of w) (rs2Of w) (immBOf w)) := by
  simp [decodeBranch, h3]

theorem decodeBranch_bltu (h3 : funct3Of w = 0b110#3) : decodeBranch w = .instr (.bltu (rs1Of w) (rs2Of w) (immBOf w)) := by
  simp [decodeBranch, h3]

theorem decodeBranch_bgeu (h3 : funct3Of w = 0b111#3) : decodeBranch w = .instr (.bgeu (rs1Of w) (rs2Of w) (immBOf w)) := by
  simp [decodeBranch, h3]

/-! ## SYSTEM and MISC-MEM (R67) -/

theorem decodeSystem_csrrw (h3 : funct3Of w = 0b001#3) : decodeSystem w = .instr (.csrrw (rdOf w) (immIOf w) (rs1Of w)) := by
  simp [decodeSystem, h3]

theorem decodeSystem_csrrs (h3 : funct3Of w = 0b010#3) : decodeSystem w = .instr (.csrrs (rdOf w) (immIOf w) (rs1Of w)) := by
  simp [decodeSystem, h3]

theorem decodeSystem_csrrc (h3 : funct3Of w = 0b011#3) : decodeSystem w = .instr (.csrrc (rdOf w) (immIOf w) (rs1Of w)) := by
  simp [decodeSystem, h3]

theorem decodeSystem_csrrwi (h3 : funct3Of w = 0b101#3) : decodeSystem w = .instr (.csrrwi (rdOf w) (immIOf w) (uimmOf w)) := by
  simp [decodeSystem, h3]

theorem decodeSystem_csrrsi (h3 : funct3Of w = 0b110#3) : decodeSystem w = .instr (.csrrsi (rdOf w) (immIOf w) (uimmOf w)) := by
  simp [decodeSystem, h3]

theorem decodeSystem_csrrci (h3 : funct3Of w = 0b111#3) : decodeSystem w = .instr (.csrrci (rdOf w) (immIOf w) (uimmOf w)) := by
  simp [decodeSystem, h3]

/-- Every MISC-MEM word is illegal where FENCE_MODE is. -/
theorem decode_miscMem_illegal (h : opcodeOf w = 0b0001111#7) : decode .illegal w = .illegal .unknownOpcode :=
  decode_miscMem .illegal h

/-- Under `nop` a MISC-MEM word with funct3 000 is FENCE, whatever its other bits. -/
theorem decode_miscMem_fence (h : opcodeOf w = 0b0001111#7) (h3 : funct3Of w = 0b000#3) :
    decode .nop w =
      .instr (.fence (w.extractLsb' 28 4) (w.extractLsb' 24 4) (w.extractLsb' 20 4) (rs1Of w) (rdOf w)) := by
  rw [decode_miscMem .nop h, decodeMiscMem, if_pos h3]

/-- A MISC-MEM word with another funct3 is illegal under `nop` too. -/
theorem decode_miscMem_unlisted (h : opcodeOf w = 0b0001111#7) (h3 : funct3Of w ≠ 0b000#3) :
    decode .nop w = .illegal .unknownFunct3 := by
  rw [decode_miscMem .nop h, decodeMiscMem, if_neg h3]

/-- FENCE_MODE is read for MISC-MEM words only. -/
theorem decode_mode_irrelevant (mode mode' : FenceMode) (h : opcodeOf w ≠ 0b0001111#7) : decode mode w = decode mode' w := by
  unfold decode
  split
  case h_10 hop => exact absurd hop h
  all_goals rfl

end

/-- Settles O7: one lemma for the words of other opcodes, three for those of MISC-MEM. -/
theorem fenceModeDecidesMiscMemOnly : Obligations.FenceModeDecidesMiscMemOnly := fun _ =>
  ⟨decode_mode_irrelevant _ _, fun h => by rw [decode_miscMem_illegal h]; rfl,
    fun h h3 => by rw [decode_miscMem_unlisted h h3]; rfl, fun h h3 => ⟨_, _, _, _, _, decode_miscMem_fence h h3⟩⟩

end Sys2Proof
end

section
/-! SUPPORT. Decode and encode undo each other (R52 to R59, R61 to R68): family by family, from the fields a format builds and the
word its own fields build. -/

namespace Sys2Proof

/-- Settles O1: by family, each field of the built word is the field it was built from. -/
theorem decodeOfEncodeIsTheInstruction : Obligations.DecodeOfEncodeIsTheInstruction := by
  unfold Obligations.DecodeOfEncodeIsTheInstruction
  intro mode i hw hmode
  cases i with
  | lui => simp [encode, decode_lui]
  | auipc => simp [encode, decode_auipc]
  | jal rd off => simp [encode, decode_jal, immJOf_encJ rd off hw]
  | jalr => simp [encode, decode_jalr]
  | beq rs1 rs2 off | bne rs1 rs2 off | blt rs1 rs2 off | bge rs1 rs2 off | bltu rs1 rs2 off | bgeu rs1 rs2 off =>
    simp [encode, decode_branch, decodeBranch, immBOf_encB _ rs1 rs2 off hw]
  | lb | lh | lw | lbu | lhu => simp [encode, decode_load, decodeLoad]
  | sb | sh | sw => simp [encode, decode_store, decodeStore]
  | addi | slti | sltiu | xori | ori | andi | slli | srli | srai => simp [encode, decode_opImm, decodeOpImm]
  | add | sub | sll | slt | sltu | xor | srl | sra | or | and => simp [encode, decode_op, decodeOp]
  | fence fm pred succ rs1 rd =>
    obtain rfl : mode = .nop := hmode.resolve_right (· rfl)
    simp [encode, decode_miscMem_fence, fenceFields_encFence fm pred succ rs1 rd]
  | ecall | ebreak => rfl
  | csrrw | csrrs | csrrc => simp [encode, decode_system, decodeSystem, regOf_regField]
  | csrrwi | csrrsi | csrrci => simp [encode, decode_system, decodeSystem]

section
variable {w : Word} {i : Instr}

theorem encode_of_decodeOp (hop : opcodeOf w = 0b0110011#7) (h : decodeOp w = .instr i) : encode i = w := by
  have hw := rebuild_encR w
  unfold decodeOp at h
  (repeat' split at h) <;> cases h <;> simp_all only [encode]

theorem encode_of_decodeOpImm (hop : opcodeOf w = 0b0010011#7) (h : decodeOpImm w = .instr i) : encode i = w := by
  have hw := rebuild_encI w
  have hshift := rebuild_encShift w hop
  unfold decodeOpImm at h
  (repeat' split at h) <;> cases h <;> simp_all only [encode]

theorem encode_of_decodeLoad (hop : opcodeOf w = 0b0000011#7) (h : decodeLoad w = .instr i) : encode i = w := by
  have hw := rebuild_encI w
  unfold decodeLoad at h
  split at h <;> cases h <;> simp_all only [encode]

theorem encode_of_decodeStore (hop : opcodeOf w = 0b0100011#7) (h : decodeStore w = .instr i) : encode i = w := by
  have hw := rebuild_encS w hop
  unfold decodeStore at h
  split at h <;> cases h <;> simp_all only [encode]

theorem encode_of_decodeBranch (hop : opcodeOf w = 0b1100011#7) (h : decodeBranch w = .instr i) : encode i = w := by
  have hw := rebuild_encB w hop
  unfold decodeBranch at h
  split at h <;> cases h <;> simp_all only [encode]

/-- The source field of a CSR stub, as a register or as an immediate (R59). -/
theorem regField_rs1Of (w : Word) : regField (rs1Of w) = uimmOf w := regField_regOf _

theorem encode_of_decodeSystem (hop : opcodeOf w = 0b1110011#7) (h : decodeSystem w = .instr i) : encode i = w := by
  have hw := rebuild_encCsr w hop
  unfold decodeSystem at h
  (repeat' split at h) <;> cases h <;> simp_all only [encode, regField_rs1Of]

theorem encode_of_decodeMiscMem {mode : FenceMode} (hop : opcodeOf w = 0b0001111#7) (h : decodeMiscMem mode w = .instr i) :
    encode i = w := by
  unfold decodeMiscMem at h
  (repeat' split at h) <;> cases h
  exact rebuild_encFence w hop ‹_›

/-- A word that decodes is the encoding of what it decodes to. -/
theorem encode_of_decode {mode : FenceMode} (h : decode mode w = .instr i) : encode i = w := by
  unfold decode at h
  split at h
  case h_1 hop | h_2 hop => cases h; rw [encode, ← hop, rebuild_encU]
  case h_3 hop => cases h; exact rebuild_encJ w hop
  case h_4 hop =>
    split at h <;> cases h
    rename_i h3
    rw [encode, ← hop, ← h3, rebuild_encI]
  case h_5 hop => exact encode_of_decodeBranch hop h
  case h_6 hop => exact encode_of_decodeLoad hop h
  case h_7 hop => exact encode_of_decodeStore hop h
  case h_8 hop => exact encode_of_decodeOpImm hop h
  case h_9 hop => exact encode_of_decodeOp hop h
  case h_10 hop => exact encode_of_decodeMiscMem hop h
  case h_11 hop => exact encode_of_decodeSystem hop h
  case h_12 => cases h

end

/-- Settles O2: the two parts, decoded instructions being well formed. -/
theorem encodeOfDecodeIsTheWord : Obligations.EncodeOfDecodeIsTheWord :=
  fun _ _ _ h => ⟨decode_wellFormed h, encode_of_decode h⟩

end Sys2Proof
end

section
/-! SUPPORT. The immediates of a word (R53 to R57): each bit of the five, and their ranges. -/

namespace Sys2Proof.Machine

section
variable (w : Word)

/-- I-immediate (R53). -/
theorem imm12_immIOf_bit (k : Nat) (hk : k < 32) :
    (imm12 (immIOf w)).getLsbD k = if k < 11 then w.getLsbD (k + 20) else w.getLsbD 31 := by
  rw [imm12_bit _ k hk, immIOf, BitVec.getLsbD_extractLsb']
  split
  case isTrue below => simp [Nat.min_eq_left (Nat.le_of_lt below), show k < 12 by omega, Nat.add_comm]
  case isFalse above => simp [Nat.min_eq_right (Nat.le_of_not_lt above)]

/-- S-immediate (R54). -/
theorem imm12_immSOf_bit (k : Nat) (hk : k < 32) :
    (imm12 (immSOf w)).getLsbD k =
      if k < 5 then w.getLsbD (k + 7) else if k < 11 then w.getLsbD (k + 20) else w.getLsbD 31 := by
  rw [imm12_bit _ k hk, immSOf]
  simp only [BitVec.getLsbD_or, getLsbD_place, BitVec.getLsbD_extractLsb']
  interval_cases k <;> simp

/-- B-immediate (R55). -/
theorem immBranch_immBOf_bit (k : Nat) (hk : k < 32) :
    (immBranch (immBOf w)).getLsbD k =
      if k = 0 then false else if k < 5 then w.getLsbD (k + 7) else if k < 11 then w.getLsbD (k + 20)
      else if k = 11 then w.getLsbD 7 else w.getLsbD 31 := by
  rw [immBranch, BitVec.getLsbD_signExtend, BitVec.msb_eq_getLsbD_last, immBOf]
  simp only [BitVec.getLsbD_or, getLsbD_place, BitVec.getLsbD_extractLsb']
  interval_cases k <;> simp

/-- J-immediate (R57). -/
theorem immJump_immJOf_bit (k : Nat) (hk : k < 32) :
    (immJump (immJOf w)).getLsbD k =
      if k = 0 then false else if k < 11 then w.getLsbD (k + 20) else if k = 11 then w.getLsbD 20
      else if k < 20 then w.getLsbD k else w.getLsbD 31 := by
  rw [immJump, BitVec.getLsbD_signExtend, BitVec.msb_eq_getLsbD_last, immJOf]
  simp only [BitVec.getLsbD_or, getLsbD_place, BitVec.getLsbD_extractLsb']
  interval_cases k <;> simp

end

theorem imm12_range (imm : BitVec 12) : -2048 ≤ (imm12 imm).toInt ∧ (imm12 imm).toInt ≤ 2047 := by
  have low := imm.le_toInt
  have high := imm.toInt_lt
  rw [imm12_toInt]
  omega

/-- A signed number with bit 0 clear is even. -/
theorem toInt_even {n : Nat} (hn : 0 < n) {off : BitVec n} (h : evenOffset off = true) : off.toInt % 2 = 0 := by
  obtain ⟨n, rfl⟩ := Nat.exists_eq_succ_of_ne_zero hn.ne'
  have even : off.toNat % 2 = 0 := (getLsbD_zero_iff off).1 (by simpa [evenOffset] using h)
  rw [BitVec.toInt_eq_toNat_cond]
  split <;> omega

/-- The displacement of a branch (R55): even, so its largest value is one less than the sign bit's. -/
theorem immBranch_range {off : BitVec 13} (h : evenOffset off = true) :
    -4096 ≤ (immBranch off).toInt ∧ (immBranch off).toInt ≤ 4094 := by
  have low := off.le_toInt
  have high := off.toInt_lt
  have even := toInt_even (by decide) h
  rw [immBranch_toInt]
  omega

/-- The displacement of JAL (R57). -/
theorem immJump_range {off : BitVec 21} (h : evenOffset off = true) :
    -1048576 ≤ (immJump off).toInt ∧ (immJump off).toInt ≤ 1048574 := by
  have low := off.le_toInt
  have high := off.toInt_lt
  have even := toInt_even (by decide) h
  rw [immJump_toInt]
  omega

/-- Settles O4: the bits of each immediate, and its range. -/
theorem immediatesFollowTheFormats : Obligations.ImmediatesFollowTheFormats := fun w =>
  ⟨imm12_immIOf_bit w, imm12_immSOf_bit w, immBranch_immBOf_bit w, immUpper_immUOf_bit w, immJump_immJOf_bit w,
    immUpper_immUOf w, imm12_range _, imm12_range _, immBranch_range (immBOf_even w), immJump_range (immJOf_even w)⟩

end Sys2Proof.Machine
end

section
/-! SUPPORT. The shifts (R81, R84, R88, R89, R107 to R109) and AUIPC (R157), in the shapes of their families. -/

namespace Sys2Proof.Machine

/-- Settles O9: the amount is the second operand modulo 32. -/
theorem registerShifts : Obligations.RegisterShifts :=
  ⟨registerRule_of_writeBack (fun a b => shiftLeft a (shiftAmount b)) (by decide) decodeOp_sll exec_sll
      fun _ b => shiftAmount_eq b ▸ shiftLeft_toNat ..,
    registerRule_of_writeBack (fun a b => shiftRightLogical a (shiftAmount b)) (by decide) decodeOp_srl exec_srl
      fun _ b => shiftAmount_eq b ▸ shiftRightLogical_toNat ..,
    registerRule_of_writeBack (fun a b => shiftRightArith a (shiftAmount b)) (by decide) decodeOp_sra exec_sra
      fun _ b => shiftAmount_eq b ▸ shiftRightArith_toInt ..⟩

/-- An immediate shift meets its rule when its row has its function codes and its meaning writes back the old operand shifted by
the shift amount (R100). -/
theorem shiftRule_of_writeBack {pattern : Word} {f3 : BitVec 3} {f7 : BitVec 7} {mk : Reg → Reg → BitVec 5 → Instr}
    {result : Word → Nat → Word → Prop} (value : Word → Nat → Word)
    (hrow : opcodeOf pattern = 0b0010011#7 ∧ funct3Of pattern = f3 ∧ funct7Of pattern = f7)
    (hdecode : ∀ {w : Word}, funct3Of w = f3 → funct7Of w = f7 →
      decodeOpImm w = .instr (mk (rdOf w) (rs1Of w) (shamtOf w)))
    (hexec : ∀ s rd rs1 shamt, exec (mk rd rs1 shamt) s = .next (s.writeBack rd (value (s.readReg rs1) shamt.toNat)))
    (hresult : ∀ a n, result a n (value a n)) : ShiftRule pattern mk result := by
  obtain ⟨hop, h3, h7⟩ := hrow
  refine ⟨fun mode w hw => ?_, fun rd rs1 shamt s =>
    ⟨_, _, hexec s rd rs1 shamt, hresult _ _, writeBack_frame s rd _⟩⟩
  obtain ⟨wop, w3, w7⟩ := fields_match7 hw
  exact (decode_opImm mode (wop.trans hop)).trans (hdecode (w3.trans h3) (w7.trans h7))

/-- Settles O13: the three rows, with their results as numbers. -/
theorem immediateShifts : Obligations.ImmediateShifts :=
  ⟨shiftRule_of_writeBack _ (by decide) decodeOpImm_slli exec_slli shiftLeft_toNat,
    shiftRule_of_writeBack _ (by decide) decodeOpImm_srli exec_srli shiftRightLogical_toNat,
    shiftRule_of_writeBack _ (by decide) decodeOpImm_srai exec_srai shiftRightArith_toInt⟩

/-- The pc plus an upper immediate, modulo 2^32 (R157). -/
theorem add_immUpper_toNat (pc : Word) (imm20 : BitVec 20) :
    (pc + immUpper imm20).toNat = (pc.toNat + imm20.toNat * 4096) % 2 ^ 32 := by
  rw [BitVec.toNat_add, immUpper_toNat]

/-- Settles O15: AUIPC writes back the sum of its own address and the operand. -/
theorem addUpperImmediateToPc : Obligations.AddUpperImmediateToPc :=
  upperRule_of_writeBack (· + ·) (by decide) decode_auipc exec_auipc add_immUpper_toNat

end Sys2Proof.Machine
end

section
/-! SUPPORT. Loads and stores (R120 to R134): the shape of each rule, proved once, and the loaded values by their bytes. -/

namespace Sys2Proof.Machine

/-- A LOAD instruction meets its rule when its row has its funct3 and its meaning loads `n` bytes from the effective address,
extended by `ext` (R120). -/
theorem loadRule_of_loadTo {pattern : Word} {f3 : BitVec 3} {n : Nat} {mk : Reg → Reg → BitVec 12 → Instr}
    {result : (Nat → Byte) → Word → Prop} (ext : Word → Word)
    (hrow : opcodeOf pattern = 0b0000011#7 ∧ funct3Of pattern = f3)
    (hdecode : ∀ {w : Word}, funct3Of w = f3 → decodeLoad w = .instr (mk (rdOf w) (rs1Of w) (immIOf w)))
    (hexec : ∀ s rd rs1 imm, exec (mk rd rs1 imm) s = .next (s.loadTo rd (s.effAddr rs1 imm) n ext))
    (hresult : ∀ (s : State) (a : Word), result (fun i => s.byteAt (a + BitVec.ofNat 32 i)) (ext (s.memValue a n))) :
    LoadRule pattern n mk result := by
  obtain ⟨hop, h3⟩ := hrow
  refine ⟨fun mode w hw => ?_, fun rd rs1 imm s =>
    ⟨_, _, hexec s rd rs1 imm, effAddr_toNat s rs1 imm, hresult _ _, loadTo_frame s rd _ n ext⟩⟩
  obtain ⟨wop, w3⟩ := fields_match3 hw
  exact (decode_load mode (wop.trans hop)).trans (hdecode (w3.trans h3))

/-- A STORE instruction meets its rule when its row has its funct3 and its meaning stores the low `n` bytes of `rs2` at the
effective address (R130). -/
theorem storeRule_of_storeFrom {pattern : Word} {f3 : BitVec 3} {n : Nat} {mk : Reg → Reg → BitVec 12 → Instr} (hn : n ≤ 4)
    (hrow : opcodeOf pattern = 0b0100011#7 ∧ funct3Of pattern = f3)
    (hdecode : ∀ {w : Word}, funct3Of w = f3 → decodeStore w = .instr (mk (rs1Of w) (rs2Of w) (immSOf w)))
    (hexec : ∀ s rs1 rs2 imm, exec (mk rs1 rs2 imm) s = .next (s.storeFrom (s.effAddr rs1 imm) n (s.readReg rs2))) :
    StoreRule pattern n mk := by
  obtain ⟨hop, h3⟩ := hrow
  refine ⟨fun mode w hw => ?_, fun rs1 rs2 imm s hm =>
    ⟨_, hexec s rs1 rs2 imm, effAddr_toNat s rs1 imm, storeFrom_frame hm _ n _ hn⟩⟩
  obtain ⟨wop, w3⟩ := fields_match3 hw
  exact (decode_store mode (wop.trans hop)).trans (hdecode (w3.trans h3))

/-! ## The loaded values -/

section
variable (s : State) (a : Word)

theorem memValue_one_toNat : (s.memValue a 1).toNat = (s.byteAt (a + 0#32)).toNat := (memValue_toNat s a).1

theorem memValue_two_toNat :
    (s.memValue a 2).toNat = (s.byteAt (a + 1#32)).toNat * 256 + (s.byteAt (a + 0#32)).toNat := (memValue_toNat s a).2.1

theorem memValue_four_toNat :
    (s.memValue a 4).toNat = (s.byteAt (a + 3#32)).toNat * 2 ^ 24 + (s.byteAt (a + 2#32)).toNat * 2 ^ 16 +
      (s.byteAt (a + 1#32)).toNat * 2 ^ 8 + (s.byteAt (a + 0#32)).toNat := (memValue_toNat s a).2.2

/-- LB (R122). -/
theorem sext8_memValue_toInt : (sext8 (s.memValue a 1)).toInt = (s.byteAt (a + 0#32)).toInt := by
  have byte : (s.memValue a 1).setWidth 8 = s.byteAt (a + 0#32) := by
    apply BitVec.eq_of_toNat_eq
    rw [BitVec.toNat_setWidth, memValue_one_toNat, Nat.mod_eq_of_lt (BitVec.isLt _)]
  rw [sext8, byte, BitVec.toInt_signExtend_of_le (by decide)]

/-- LBU (R125). -/
theorem zext8_memValue_toNat : (zext8 (s.memValue a 1)).toNat = (s.byteAt (a + 0#32)).toNat := by
  have byte := (s.byteAt (a + 0#32)).isLt
  rw [zext8, BitVec.toNat_setWidth, BitVec.toNat_setWidth, memValue_one_toNat]
  omega

/-- LH (R123): the sign is that of the byte at the higher address. -/
theorem sext16_memValue_toInt :
    (sext16 (s.memValue a 2)).toInt = (s.byteAt (a + 1#32)).toInt * 256 + (s.byteAt (a + 0#32)).toNat := by
  have low := (s.byteAt (a + 0#32)).isLt
  have high := (s.byteAt (a + 1#32)).isLt
  rw [sext16, BitVec.toInt_signExtend_of_le (by decide), BitVec.toInt_eq_toNat_cond, BitVec.toInt_eq_toNat_cond,
    BitVec.toNat_setWidth, memValue_two_toNat]
  split <;> split <;> omega

/-- LHU (R126). -/
theorem zext16_memValue_toNat :
    (zext16 (s.memValue a 2)).toNat = (s.byteAt (a + 1#32)).toNat * 256 + (s.byteAt (a + 0#32)).toNat := by
  have low := (s.byteAt (a + 0#32)).isLt
  have high := (s.byteAt (a + 1#32)).isLt
  rw [zext16, BitVec.toNat_setWidth, BitVec.toNat_setWidth, memValue_two_toNat]
  omega

end

/-! ## The rules -/

/-- Settles O16: the two rows, with their values by the byte read. -/
theorem byteLoads : Obligations.ByteLoads :=
  ⟨loadRule_of_loadTo _ (by decide) decodeLoad_lb exec_lb sext8_memValue_toInt,
    loadRule_of_loadTo _ (by decide) decodeLoad_lbu exec_lbu zext8_memValue_toNat⟩

/-- Settles O17: the two rows, with their values by the two bytes read. -/
theorem halfwordLoads : Obligations.HalfwordLoads :=
  ⟨loadRule_of_loadTo _ (by decide) decodeLoad_lh exec_lh sext16_memValue_toInt,
    loadRule_of_loadTo _ (by decide) decodeLoad_lhu exec_lhu zext16_memValue_toNat⟩

/-- Settles O18: the row of LW, which extends nothing. -/
theorem wordLoad : Obligations.WordLoad :=
  loadRule_of_loadTo id (by decide) decodeLoad_lw exec_lw memValue_four_toNat

/-- Settles O19: the three rows, of 1, 2 and 4 bytes. -/
theorem stores : Obligations.Stores :=
  ⟨storeRule_of_storeFrom (by decide) (by decide) decodeStore_sb exec_sb,
    storeRule_of_storeFrom (by decide) (by decide) decodeStore_sh exec_sh,
    storeRule_of_storeFrom (by decide) (by decide) decodeStore_sw exec_sw⟩

end Sys2Proof.Machine
end

section
/-! SUPPORT. Branches and jumps (R140 to R151): the shape of a branch's rule, proved once, and the targets as numbers. -/

namespace Sys2Proof.Machine

/-- A BRANCH instruction meets its rule when its row has its funct3 and its meaning branches on `condition`, which decides
`taken` (R140). -/
theorem branchRule_of_branch {pattern : Word} {f3 : BitVec 3} {mk : Reg → Reg → BitVec 13 → Instr} {taken : Word → Word → Prop}
    (condition : Word → Word → Bool) (hrow : opcodeOf pattern = 0b1100011#7 ∧ funct3Of pattern = f3)
    (hdecode : ∀ {w : Word}, funct3Of w = f3 → decodeBranch w = .instr (mk (rs1Of w) (rs2Of w) (immBOf w)))
    (hexec : ∀ s rs1 rs2 off, exec (mk rs1 rs2 off) s =
      .next (s.branch (condition (s.readReg rs1) (s.readReg rs2)) (s.branchTarget off)))
    (htaken : ∀ a b, condition a b = true ↔ taken a b) : BranchRule pattern mk taken := by
  obtain ⟨hop, h3⟩ := hrow
  refine ⟨fun mode w hw => ?_, fun rs1 rs2 off s => ?_⟩
  · obtain ⟨wop, w3⟩ := fields_match3 hw
    exact (decode_branch mode (wop.trans hop)).trans (hdecode (w3.trans h3))
  · obtain ⟨hpc, frame⟩ := branch_frame s (condition (s.readReg rs1) (s.readReg rs2)) (s.branchTarget off)
    refine ⟨_, hexec s rs1 rs2 off, fun ht => ?_, fun ht => ?_, frame⟩
    · rw [hpc, if_pos ((htaken _ _).2 ht), State.branchTarget, toNat_add_signed, immBranch_toInt]
    · rw [hpc, if_neg fun hc => ht ((htaken _ _).1 hc), BitVec.toNat_add]
      rfl

/-- Settles O20: the six rows; BGE and BGEU are taken where BLT and BLTU are not. -/
theorem branches : Obligations.Branches :=
  ⟨branchRule_of_branch _ (by decide) decodeBranch_beq exec_beq fun _ _ => decide_eq_true_iff,
    branchRule_of_branch _ (by decide) decodeBranch_bne exec_bne fun _ _ => decide_eq_true_iff,
    branchRule_of_branch _ (by decide) decodeBranch_blt exec_blt fun _ _ => decide_eq_true_iff,
    branchRule_of_branch (fun a b => !lessSigned a b) (by decide) decodeBranch_bge exec_bge fun a b => by simp [lessSigned],
    branchRule_of_branch _ (by decide) decodeBranch_bltu exec_bltu fun _ _ => decide_eq_true_iff,
    branchRule_of_branch (fun a b => !lessUnsigned a b) (by decide) decodeBranch_bgeu exec_bgeu
      fun a b => by simp [lessUnsigned]⟩

/-- JAL's target (R150). -/
theorem jumpTarget_toNat (s : State) (off : BitVec 21) :
    ((s.jumpTarget off).toNat : Int) = (s.pc.toNat + off.toInt) % 2 ^ 32 := by
  rw [State.jumpTarget, toNat_add_signed, immJump_toInt]

/-- JALR's target (R151). -/
theorem jalrTarget_toNat (s : State) (rs1 : Reg) (imm : BitVec 12) :
    ((s.jalrTarget rs1 imm).toNat : Int) = ((s.readReg rs1).toNat + imm.toInt) % 2 ^ 32 / 2 * 2 := by
  rw [State.jalrTarget, clearBit0_toNat, ← effAddr_toNat]
  norm_cast

/-- What a jump to `target` does, but for the pc. -/
theorem linkJump_link (s : State) (rd : Reg) (target : Word) :
    RegWritten rd (s.pc + 4#32) s (s.linkJump rd target) ∧ MemKept s (s.linkJump rd target) ∧
      LogKept s (s.linkJump rd target) ∧ ControlKept s (s.linkJump rd target) :=
  have ⟨hreg, _, hrest⟩ := linkJump_frame s rd target
  ⟨hreg, hrest⟩

theorem decode_jal_row (mode : FenceMode) (w : Word) (hw : w &&& 0x0000007F#32 = 0x0000006F#32) :
    decode mode w = .instr (.jal (rdOf w) (immJOf w)) :=
  decode_jal mode (opcodeOf_match hw)

theorem decode_jalr_row (mode : FenceMode) (w : Word) (hw : w &&& 0x0000707F#32 = 0x00000067#32) :
    decode mode w = .instr (.jalr (rdOf w) (rs1Of w) (immIOf w)) :=
  have ⟨hop, h3⟩ := fields_match3 hw
  decode_jalr mode hop h3

/-- Settles O21: the two rows, their targets, and the frame of a jump. -/
theorem jumps : Obligations.Jumps :=
  ⟨decode_jal_row, decode_jalr_row, fun rd off s => ⟨_, exec_jal s rd off, jumpTarget_toNat s off, linkJump_link s rd _⟩,
    fun rd rs1 imm s => ⟨_, exec_jalr s rd rs1 imm, jalrTarget_toNat s rs1 imm, linkJump_link s rd _⟩⟩

end Sys2Proof.Machine
end

section
/-! SUPPORT. ECALL, EBREAK, FENCE and the CSR stubs (R160 to R170). -/

namespace Sys2Proof.Machine

/-- The only word that decodes to an instruction other than FENCE is its encoding. -/
theorem decode_eq_iff (mode : FenceMode) (w : Word) {i : Instr} (hi : i.wellFormed = true) (hf : i.mnemonic ≠ "FENCE") :
    decode mode w = .instr i ↔ w = encode i := by
  constructor
  · exact fun h => (encode_of_decode h).symm
  · rintro rfl
    exact decodeOfEncodeIsTheInstruction mode i hi (.inr hf)

/-- What a halt of the executed instruction changes. -/
theorem halt_frame_counter (s : State) (r : HaltReason) :
    HaltedWith r s (s.halt r) ∧ LogKept s (s.halt r) ∧ (s.halt r).insnCount = s.insnCount :=
  ⟨halt_frame s r, rfl, rfl⟩

/-- Settles O22: the two words are the encodings, and each instruction is a halt. -/
theorem environmentCallAndBreakpoint : Obligations.EnvironmentCallAndBreakpoint :=
  ⟨fun mode w => decode_eq_iff mode w rfl (by decide), fun mode w => decode_eq_iff mode w rfl (by decide),
    fun s => ⟨_, exec_ecall s, halt_frame_counter s _⟩, fun s => ⟨_, exec_ebreak s, halt_frame_counter s _⟩⟩

/-- Settles O23: the words by their funct3, the effect by the mode. -/
theorem fenceInBothModes : Obligations.FenceInBothModes := by
  refine ⟨fun w hw => ?_, fun w hop => ?_, fun w hop h3 => ?_, fun fm pred succ rs1 rd s hmode => ?_,
    fun fm pred succ rs1 rd s hmode => ?_⟩
  · obtain ⟨hop, h3⟩ := fields_match3 hw
    exact ⟨_, _, _, _, _, decode_miscMem_fence hop h3⟩
  · rw [decode_miscMem_illegal hop, Verdict.instr?]
  · rw [decode_miscMem_unlisted hop h3, Verdict.instr?]
  · exact ⟨_, exec_fence_nop s fm pred succ rs1 rd hmode, advance_frame s⟩
  · exact ⟨_, exec_fence_illegal s fm pred succ rs1 rd hmode, halt_frame_counter s _⟩

/-- A word with the row of a CSR stub decodes as SYSTEM does by its funct3. -/
theorem decode_csr_row {pattern : Word} {f3 : BitVec 3} {mk : Word → Instr}
    (hdecode : ∀ {w : Word}, funct3Of w = f3 → decodeSystem w = .instr (mk w))
    (hrow : opcodeOf pattern = 0b1110011#7 ∧ funct3Of pattern = f3) (mode : FenceMode) (w : Word)
    (hw : w &&& 0x0000707F#32 = pattern) : decode mode w = .instr (mk w) := by
  obtain ⟨hop, h3⟩ := hrow
  obtain ⟨wop, w3⟩ := fields_match3 hw
  exact (decode_system mode (wop.trans hop)).trans (hdecode (w3.trans h3))

/-- An instruction that advances the pc does nothing else (R164). -/
theorem stubEffect_of_advance {i : Instr} (h : ∀ s, exec i s = .next s.advance) : StubEffect i :=
  fun s => ⟨_, h s, advance_frame s⟩

/-- Settles O24: the six rows, and six pc advances. -/
theorem csrStubs : Obligations.CsrStubs :=
  ⟨decode_csr_row decodeSystem_csrrw (by decide), decode_csr_row decodeSystem_csrrs (by decide),
    decode_csr_row decodeSystem_csrrc (by decide), decode_csr_row decodeSystem_csrrwi (by decide),
    decode_csr_row decodeSystem_csrrsi (by decide), decode_csr_row decodeSystem_csrrci (by decide),
    fun rd csr rs1 => ⟨stubEffect_of_advance fun s => exec_csrrw s rd csr rs1,
      stubEffect_of_advance fun s => exec_csrrs s rd csr rs1, stubEffect_of_advance fun s => exec_csrrc s rd csr rs1⟩,
    fun rd csr uimm => ⟨stubEffect_of_advance fun s => exec_csrrwi s rd csr uimm,
      stubEffect_of_advance fun s => exec_csrrsi s rd csr uimm, stubEffect_of_advance fun s => exec_csrrci s rd csr uimm⟩⟩

end Sys2Proof.Machine
end

section
/-! SUPPORT. The opcode table and the decoder (R60, R69): a word decodes exactly when a row accepts it, and no word has two rows. -/

namespace Sys2Proof

/-! ## From the decoder to the table -/

/-- Every instruction's encoding has the instruction's row. -/
theorem encode_matches_row : ∀ i, Laws.RowMatch.Statement i
  | .lui .. => Laws.RowMatch.lui ..
  | .auipc .. => Laws.RowMatch.auipc ..
  | .jal .. => Laws.RowMatch.jal ..
  | .jalr .. => Laws.RowMatch.jalr ..
  | .beq .. => Laws.RowMatch.beq ..
  | .bne .. => Laws.RowMatch.bne ..
  | .blt .. => Laws.RowMatch.blt ..
  | .bge .. => Laws.RowMatch.bge ..
  | .bltu .. => Laws.RowMatch.bltu ..
  | .bgeu .. => Laws.RowMatch.bgeu ..
  | .lb .. => Laws.RowMatch.lb ..
  | .lh .. => Laws.RowMatch.lh ..
  | .lw .. => Laws.RowMatch.lw ..
  | .lbu .. => Laws.RowMatch.lbu ..
  | .lhu .. => Laws.RowMatch.lhu ..
  | .sb .. => Laws.RowMatch.sb ..
  | .sh .. => Laws.RowMatch.sh ..
  | .sw .. => Laws.RowMatch.sw ..
  | .addi .. => Laws.RowMatch.addi ..
  | .slti .. => Laws.RowMatch.slti ..
  | .sltiu .. => Laws.RowMatch.sltiu ..
  | .xori .. => Laws.RowMatch.xori ..
  | .ori .. => Laws.RowMatch.ori ..
  | .andi .. => Laws.RowMatch.andi ..
  | .slli .. => Laws.RowMatch.slli ..
  | .srli .. => Laws.RowMatch.srli ..
  | .srai .. => Laws.RowMatch.srai ..
  | .add .. => Laws.RowMatch.add ..
  | .sub .. => Laws.RowMatch.sub ..
  | .sll .. => Laws.RowMatch.sll ..
  | .slt .. => Laws.RowMatch.slt ..
  | .sltu .. => Laws.RowMatch.sltu ..
  | .xor .. => Laws.RowMatch.xor ..
  | .srl .. => Laws.RowMatch.srl ..
  | .sra .. => Laws.RowMatch.sra ..
  | .or .. => Laws.RowMatch.or ..
  | .and .. => Laws.RowMatch.and ..
  | .fence .. => Laws.RowMatch.fence ..
  | .ecall => Laws.RowMatch.ecall
  | .ebreak => Laws.RowMatch.ebreak
  | .csrrw .. => Laws.RowMatch.csrrw ..
  | .csrrs .. => Laws.RowMatch.csrrs ..
  | .csrrc .. => Laws.RowMatch.csrrc ..
  | .csrrwi .. => Laws.RowMatch.csrrwi ..
  | .csrrsi .. => Laws.RowMatch.csrrsi ..
  | .csrrci .. => Laws.RowMatch.csrrci ..

/-- Only `nop` has FENCE: an encoding of FENCE is a MISC-MEM word. -/
theorem mode_nop_of_decode_fence {mode : FenceMode} {w : Word} {i : Instr} (h : decode mode w = .instr i)
    (hi : i.mnemonic = "FENCE") : mode = .nop := by
  cases mode with
  | nop => rfl
  | illegal =>
    cases i
    case fence fm pred succ rs1 rd =>
      rw [← encode_of_decode h, encode, decode_miscMem_illegal (opcodeOf_encFence fm pred succ rs1 rd)] at h
      cases h
    all_goals exact absurd hi (by simp [Instr.mnemonic])

/-- The two tables differ by the FENCE row. -/
theorem rowsOf_nop : rowsOf .nop = rowsOf .illegal ++ fenceRows := rfl

theorem mem_rowsOf_nop {mode : FenceMode} {r : Row} (hr : r ∈ rowsOf mode) : r ∈ rowsOf .nop := by
  cases mode with
  | nop => exact hr
  | illegal => exact List.mem_append_left fenceRows hr

/-- A row of the table under `nop` stands under every mode that has its instruction. -/
theorem mem_rowsOf_of_nop {mode : FenceMode} {r : Row} (hr : r ∈ rowsOf .nop) (h : r.mnemonic = "FENCE" → mode = .nop) :
    r ∈ rowsOf mode := by
  cases mode with
  | nop => exact hr
  | illegal =>
    rw [rowsOf_nop] at hr
    rcases List.mem_append.1 hr with hr | hr
    · exact hr
    · rw [fenceRows, List.mem_singleton] at hr
      cases h (hr ▸ rfl)

/-- A word that decodes has the row of what it decodes to. -/
theorem row_of_decode {mode : FenceMode} {w : Word} {i : Instr} (h : decode mode w = .instr i) :
    ∃ r ∈ rowsOf mode, r.accepts w = true ∧ r.mnemonic = i.mnemonic := by
  obtain ⟨r, hr, haccepts, hname⟩ := encode_matches_row i
  rw [encode_of_decode h] at haccepts
  exact ⟨r, mem_rowsOf_of_nop hr fun hf => mode_nop_of_decode_fence h (hname ▸ hf), haccepts, hname⟩

/-! ## From the table to the decoder -/

/-- Every word the row accepts decodes to an instruction with the row's mnemonic. -/
def Row.Decoded (mode : FenceMode) (r : Row) : Prop :=
  ∀ w, r.accepts w = true → ∃ i, decode mode w = .instr i ∧ r.mnemonic = i.mnemonic

theorem Row.decoded_of_match {mode : FenceMode} {r : Row} (mk : Word → Instr)
    (h : ∀ w, w &&& r.mask = r.pattern → decode mode w = .instr (mk w)) (hname : ∀ w, r.mnemonic = (mk w).mnemonic) :
    r.Decoded mode :=
  fun w hw => ⟨mk w, h w (decide_eq_true_iff.1 hw), hname w⟩

/-- A row that fixes every bit accepts its pattern only. -/
theorem eq_of_match_all {w p : Word} (h : w &&& 0xFFFFFFFF#32 = p) : w = p := by
  rw [← h]
  exact (BitVec.and_allOnes (x := w)).symm

open Machine

section
variable (mode : FenceMode)

theorem decoded_upperJumpRows : ∀ r ∈ upperJumpRows, r.Decoded mode := by
  obtain ⟨⟨lui, -⟩, -⟩ := loadUpperImmediate
  obtain ⟨auipc, -⟩ := addUpperImmediateToPc
  obtain ⟨jal, jalr, -⟩ := jumps
  simp only [upperJumpRows, List.forall_mem_cons]
  exact ⟨Row.decoded_of_match _ (lui mode) fun _ => rfl, Row.decoded_of_match _ (auipc mode) fun _ => rfl,
    Row.decoded_of_match _ (jal mode) fun _ => rfl, Row.decoded_of_match _ (jalr mode) fun _ => rfl,
    List.forall_mem_nil _⟩

theorem decoded_branchRows : ∀ r ∈ branchRows, r.Decoded mode := by
  obtain ⟨⟨beq, -⟩, ⟨bne, -⟩, ⟨blt, -⟩, ⟨bge, -⟩, ⟨bltu, -⟩, ⟨bgeu, -⟩⟩ := branches
  simp only [branchRows, List.forall_mem_cons]
  exact ⟨Row.decoded_of_match _ (beq mode) fun _ => rfl, Row.decoded_of_match _ (bne mode) fun _ => rfl,
    Row.decoded_of_match _ (blt mode) fun _ => rfl, Row.decoded_of_match _ (bge mode) fun _ => rfl,
    Row.decoded_of_match _ (bltu mode) fun _ => rfl, Row.decoded_of_match _ (bgeu mode) fun _ => rfl,
    List.forall_mem_nil _⟩

theorem decoded_loadStoreRows : ∀ r ∈ loadStoreRows, r.Decoded mode := by
  obtain ⟨⟨lb, -⟩, ⟨lbu, -⟩⟩ := byteLoads
  obtain ⟨⟨lh, -⟩, ⟨lhu, -⟩⟩ := halfwordLoads
  obtain ⟨lw, -⟩ := wordLoad
  obtain ⟨⟨sb, -⟩, ⟨sh, -⟩, ⟨sw, -⟩⟩ := stores
  simp only [loadStoreRows, List.forall_mem_cons]
  exact ⟨Row.decoded_of_match _ (lb mode) fun _ => rfl, Row.decoded_of_match _ (lh mode) fun _ => rfl,
    Row.decoded_of_match _ (lw mode) fun _ => rfl, Row.decoded_of_match _ (lbu mode) fun _ => rfl,
    Row.decoded_of_match _ (lhu mode) fun _ => rfl, Row.decoded_of_match _ (sb mode) fun _ => rfl,
    Row.decoded_of_match _ (sh mode) fun _ => rfl, Row.decoded_of_match _ (sw mode) fun _ => rfl,
    List.forall_mem_nil _⟩

theorem decoded_opImmRows : ∀ r ∈ opImmRows, r.Decoded mode := by
  obtain ⟨⟨addi, -⟩, ⟨slti, -⟩, ⟨sltiu, -⟩⟩ := immediateArithmetic
  obtain ⟨⟨xori, -⟩, ⟨ori, -⟩, ⟨andi, -⟩⟩ := immediateLogic
  obtain ⟨⟨slli, -⟩, ⟨srli, -⟩, ⟨srai, -⟩⟩ := immediateShifts
  simp only [opImmRows, List.forall_mem_cons]
  exact ⟨Row.decoded_of_match _ (addi mode) fun _ => rfl, Row.decoded_of_match _ (slti mode) fun _ => rfl,
    Row.decoded_of_match _ (sltiu mode) fun _ => rfl, Row.decoded_of_match _ (xori mode) fun _ => rfl,
    Row.decoded_of_match _ (ori mode) fun _ => rfl, Row.decoded_of_match _ (andi mode) fun _ => rfl,
    Row.decoded_of_match _ (slli mode) fun _ => rfl, Row.decoded_of_match _ (srli mode) fun _ => rfl,
    Row.decoded_of_match _ (srai mode) fun _ => rfl, List.forall_mem_nil _⟩

theorem decoded_opRows : ∀ r ∈ opRows, r.Decoded mode := by
  obtain ⟨⟨add, -⟩, ⟨sub, -⟩, ⟨slt, -⟩, ⟨sltu, -⟩⟩ := registerArithmetic
  obtain ⟨⟨sll, -⟩, ⟨srl, -⟩, ⟨sra, -⟩⟩ := registerShifts
  obtain ⟨⟨xor, -⟩, ⟨or, -⟩, ⟨and, -⟩⟩ := registerLogic
  simp only [opRows, List.forall_mem_cons]
  exact ⟨Row.decoded_of_match _ (add mode) fun _ => rfl, Row.decoded_of_match _ (sub mode) fun _ => rfl,
    Row.decoded_of_match _ (sll mode) fun _ => rfl, Row.decoded_of_match _ (slt mode) fun _ => rfl,
    Row.decoded_of_match _ (sltu mode) fun _ => rfl, Row.decoded_of_match _ (xor mode) fun _ => rfl,
    Row.decoded_of_match _ (srl mode) fun _ => rfl, Row.decoded_of_match _ (sra mode) fun _ => rfl,
    Row.decoded_of_match _ (or mode) fun _ => rfl, Row.decoded_of_match _ (and mode) fun _ => rfl,
    List.forall_mem_nil _⟩

theorem decoded_systemRows : ∀ r ∈ systemRows, r.Decoded mode := by
  obtain ⟨ecall, ebreak, -⟩ := environmentCallAndBreakpoint
  obtain ⟨csrrw, csrrs, csrrc, csrrwi, csrrsi, csrrci, -⟩ := csrStubs
  simp only [systemRows, List.forall_mem_cons]
  exact ⟨Row.decoded_of_match _ (fun w hw => (ecall mode w).2 (eq_of_match_all hw)) fun _ => rfl,
    Row.decoded_of_match _ (fun w hw => (ebreak mode w).2 (eq_of_match_all hw)) fun _ => rfl,
    Row.decoded_of_match _ (csrrw mode) fun _ => rfl, Row.decoded_of_match _ (csrrs mode) fun _ => rfl,
    Row.decoded_of_match _ (csrrc mode) fun _ => rfl, Row.decoded_of_match _ (csrrwi mode) fun _ => rfl,
    Row.decoded_of_match _ (csrrsi mode) fun _ => rfl, Row.decoded_of_match _ (csrrci mode) fun _ => rfl,
    List.forall_mem_nil _⟩

theorem decoded_fenceRows : ∀ r ∈ fenceRows, r.Decoded .nop := by
  have fence (w : Word) (hw : w &&& 0x0000707F#32 = 0x0000000F#32) :=
    have ⟨hop, h3⟩ := fields_match3 hw
    decode_miscMem_fence hop h3
  simp only [fenceRows, List.forall_mem_cons]
  exact ⟨Row.decoded_of_match _ fence fun _ => rfl, List.forall_mem_nil _⟩

/-- A word that a row accepts decodes to an instruction of that row. -/
theorem decoded_rowsOf {r : Row} (hr : r ∈ rowsOf mode) : r.Decoded mode := by
  have common : ∀ r ∈ rowsOf .illegal, r.Decoded mode := by
    simp only [rowsOf, List.forall_mem_append]
    exact ⟨⟨⟨⟨⟨decoded_upperJumpRows mode, decoded_branchRows mode⟩, decoded_loadStoreRows mode⟩, decoded_opImmRows mode⟩,
      decoded_opRows mode⟩, decoded_systemRows mode⟩
  cases mode with
  | illegal => exact common r hr
  | nop => exact List.forall_mem_append.2 ⟨common, decoded_fenceRows⟩ r hr

end

/-! ## Exactly the table -/

/-- The rows differ at a bit both of them fix. -/
abbrev Row.Clash (r r' : Row) : Prop := r.pattern &&& r'.mask ≠ r'.pattern &&& r.mask

theorem rowsOf_clash : (rowsOf .nop).Pairwise Row.Clash := by
  decide

/-- Two rows that accept one word agree at the bits both of them fix. -/
theorem agree_of_accepts {r r' : Row} {w : Word} (h : r.accepts w = true) (h' : r'.accepts w = true) :
    r.pattern &&& r'.mask = r'.pattern &&& r.mask := by
  rw [← decide_eq_true_iff.1 h, ← decide_eq_true_iff.1 h', BitVec.and_assoc, BitVec.and_assoc, BitVec.and_comm r.mask]

/-- No word has two rows. -/
theorem row_unique {mode : FenceMode} {r r' : Row} {w : Word} (hr : r ∈ rowsOf mode) (hr' : r' ∈ rowsOf mode)
    (h : r.accepts w = true) (h' : r'.accepts w = true) : r = r' := by
  have symmetric : Std.Symm Row.Clash := ⟨fun _ _ => Ne.symm⟩
  by_contra hne
  exact rowsOf_clash.forall (mem_rowsOf_nop hr) (mem_rowsOf_nop hr') hne (agree_of_accepts h h')

/-- The decoder rejects exactly the words that match no row. -/
theorem decode_illegal_iff {mode : FenceMode} {w : Word} :
    (∃ why, decode mode w = .illegal why) ↔ ∀ r ∈ rowsOf mode, r.accepts w = false := by
  constructor
  · rintro ⟨why, h⟩ r hr
    by_contra haccepts
    obtain ⟨i, hi, -⟩ := decoded_rowsOf mode hr w (by simpa using haccepts)
    rw [h] at hi
    cases hi
  · intro h
    cases hd : decode mode w with
    | illegal why => exact ⟨why, rfl⟩
    | instr i =>
      obtain ⟨r, hr, haccepts, -⟩ := row_of_decode hd
      rw [h r hr] at haccepts
      cases haccepts

end Sys2Proof
end

section
/-! SUPPORT. Words written out from the formats and words the spec names as illegal. -/

namespace Sys2Proof

/-- Settles O5: each word is a closed computation of the decoder. -/
theorem sampleWordsDecode : Obligations.SampleWordsDecode := by
  unfold Obligations.SampleWordsDecode
  decide

/-- Settles O6: word by word, the decoder's answer in each mode. -/
theorem namedIllegalWordsAreRejected : Obligations.NamedIllegalWordsAreRejected := by
  unfold Obligations.NamedIllegalWordsAreRejected
  intro mode
  simp only [List.forall_mem_cons]
  cases mode <;>
    exact ⟨rfl, rfl, rfl, rfl, rfl, rfl, rfl, rfl, rfl, rfl, rfl, rfl, rfl, rfl, rfl, rfl, rfl, rfl, List.forall_mem_nil _⟩

end Sys2Proof
end

section
/-! SUPPORT. The halts of a tick (R181 to R185), and the words that make them. -/

namespace Sys2Proof.Machine

/-- Where a tick leads (R180): nowhere when halted; to the halt of a misaligned pc; and after the fetch to what the decoded
instruction answers, or to the halt of a word the decoder rejects. -/
theorem step_next_cases {s t : State} (h : step s = .next t) :
    (s.halted = true ∧ t = s) ∨
    (s.halted = false ∧ pcAligned s.pc = false ∧ t = s.countTick.halt .pcAlignment) ∨
    (s.halted = false ∧ pcAligned s.pc = true ∧ ∃ i, s.fetched = .instr i ∧ exec i s.afterFetch = .next t) ∨
    (s.halted = false ∧ pcAligned s.pc = true ∧ ∃ why, s.fetched = .illegal why ∧
      t = s.afterFetch.halt .illegalInstruction) := by
  simpa only [h, Host.Outcome.next.injEq, eq_comm (b := Host.Outcome.next t)] using step_cases s

/-- A decoded instruction that halts a running hart is one of the two whole words: FENCE halts only in the mode that does not
decode it. -/
theorem word_of_decoded_halt {mode : FenceMode} {w : Word} {i : Instr} {u t : State} (hd : decode mode w = .instr i)
    (hmode : u.cfg.fenceMode = mode) (hexec : exec i u = .next t) (hrun : u.halted = false) (ht : t.halted = true) :
    (w = 0x00000073#32 ∧ t = u.halt .ecall) ∨ (w = 0x00100073#32 ∧ t = u.halt .ebreak) := by
  rcases exec_halts hexec hrun ht with ⟨rfl, rfl⟩ | ⟨rfl, rfl⟩ | ⟨hfence, hillegal, -⟩
  · exact .inl ⟨(encode_of_decode hd).symm, rfl⟩
  · exact .inr ⟨(encode_of_decode hd).symm, rfl⟩
  · rw [hmode, mode_nop_of_decode_fence hd hfence] at hillegal
    cases hillegal

/-- A running hart with an aligned pc halts with "Illegal instruction" exactly on the words that match no row (R182). -/
theorem step_illegalInstruction_iff {s : State} (hrun : s.halted = false) (hp : pcAligned s.pc = true) :
    (∃ t, step s = .next t ∧ t.halted = true ∧ t.haltReason = .illegalInstruction) ↔
      ∀ r ∈ rowsOf s.cfg.fenceMode, r.accepts (s.memValue s.pc 4) = false := by
  rw [← decode_illegal_iff]
  constructor
  · rintro ⟨t, hstep, hhalt, hreason⟩
    cases hf : s.fetched with
    | illegal why => exact ⟨why, hf⟩
    | instr i =>
      rw [step_instr hrun hp hf] at hstep
      rcases word_of_decoded_halt hf (congrArg _ (afterFetch_cfg s)) hstep hrun hhalt with ⟨-, rfl⟩ | ⟨-, rfl⟩ <;> cases hreason
  · intro hd
    obtain ⟨t, hstep, ⟨hhalt, hreason, -⟩, -⟩ := step_of_illegal_word hrun hp hd
    exact ⟨t, hstep, hhalt, hreason⟩

/-- Settles O3: both directions between decoder and table, disjoint rows, and the executor on the words that match none. -/
theorem decoderAcceptsExactlyTheTable : Obligations.DecoderAcceptsExactlyTheTable :=
  ⟨rfl, rfl, fun mode w => ⟨fun _ => row_of_decode, fun _ hr => decoded_rowsOf mode hr w, fun _ hr _ hr' => row_unique hr hr'⟩,
    fun _ => step_illegalInstruction_iff⟩

/-- Settles O30: the decoder rejects a word that matches no row. -/
theorem illegalWordHalts : Obligations.IllegalWordHalts :=
  fun _ hrun hp hrows => step_of_illegal_word hrun hp (decode_illegal_iff.2 hrows)

/-- Settles O32: of the four ways a tick leads, all but the first can halt, the third by one of two words. -/
theorem haltsArePreciseAndOfFourCauses : Obligations.HaltsArePreciseAndOfFourCauses := by
  unfold Obligations.HaltsArePreciseAndOfFourCauses
  intro s t hrun hstep hhalt
  rcases step_next_cases hstep with ⟨hhalted, -⟩ | ⟨-, hp, rfl⟩ | ⟨-, hp, i, hf, hexec⟩ | ⟨-, hp, why, hf, rfl⟩
  · rw [hrun] at hhalted
    cases hhalted
  · obtain ⟨hframe, hlog, hcount⟩ := halt_countTick_frame s .pcAlignment
    exact ⟨hframe, hcount, .inl ⟨rfl, hp, hlog⟩⟩
  · rcases word_of_decoded_halt hf (congrArg _ (afterFetch_cfg s)) hexec hrun hhalt with ⟨hw, rfl⟩ | ⟨hw, rfl⟩
    · obtain ⟨hframe, -, hcount⟩ := halt_afterFetch_frame s .ecall
      exact ⟨hframe, hcount, .inr (.inl ⟨rfl, hp, hw⟩)⟩
    · obtain ⟨hframe, -, hcount⟩ := halt_afterFetch_frame s .ebreak
      exact ⟨hframe, hcount, .inr (.inr (.inl ⟨rfl, hp, hw⟩))⟩
  · obtain ⟨hframe, -, hcount⟩ := halt_afterFetch_frame s .illegalInstruction
    exact ⟨hframe, hcount, .inr (.inr (.inr ⟨rfl, hp, decode_illegal_iff.1 ⟨why, hf⟩⟩))⟩

/-- Settles O26: the instruction runs in the state after the fetch. -/
theorem stepRunsTheDecodedInstruction : Obligations.StepRunsTheDecodedInstruction :=
  fun s _ hrun hp hd => ⟨s.afterFetch, step_instr hrun hp hd, rfl, afterFetch_log s, rfl, rfl, rfl, hrun, rfl, rfl, rfl, rfl⟩

/-- Settles O33: codes and strings as the model writes them. -/
theorem haltReasonCodesAndStrings : Obligations.HaltReasonCodesAndStrings :=
  ⟨⟨rfl, rfl, rfl, rfl, rfl⟩, rfl, rfl, rfl, rfl⟩

end Sys2Proof.Machine
end

section
/-! SUPPORT. Legal addresses (R20, R31) and a fetch outside memory (R38). -/

namespace Sys2Proof.Machine

theorem legalAddr_iff (size : Nat) (a : Word) : legalAddr size a = true ↔ a.toNat < size := decide_eq_true_iff

/-- Settles O39: the bound of the top addresses is that of MEM_SIZE. -/
theorem legalAddressesAreBelowMemSize : Obligations.LegalAddressesAreBelowMemSize := by
  refine ⟨fun s => legalAddr_iff s.size, memSize_spec, fun s a ha => ?_⟩
  obtain ⟨-, -, -, bound⟩ := memSize_spec s.cfg
  exact decide_eq_false (Nat.not_lt.2 (bound.trans ha))

/-- MEM_SIZE is a multiple of 16, so no aligned word straddles its end (R38). -/
theorem legalAddr_of_pcAligned (c : Config) {p : Word} (hp : pcAligned p = true) (i : Nat) (hi : i < 4) :
    legalAddr (memSize c) (p + BitVec.ofNat 32 i) = legalAddr (memSize c) p := by
  obtain ⟨⟨k, hk⟩, -⟩ := memSize_spec c
  rw [pcAligned_iff] at hp
  have := p.isLt
  have address : (p + BitVec.ofNat 32 i).toNat = p.toNat + i := by
    rw [BitVec.toNat_add, BitVec.toNat_ofNat]
    omega
  rw [legalAddr, legalAddr, address, decide_eq_decide]
  omega

theorem byteAt_of_illegal {s : State} {a : Word} (h : legalAddr s.size a = false) : s.byteAt a = 0#8 := by
  rw [State.byteAt, read8, h]
  rfl

/-- A read of illegal bytes only returns 0 (R32, R35). -/
theorem memValue_of_illegal {s : State} {a : Word} {n : Nat}
    (h : ∀ i, i < n → legalAddr s.size (a + BitVec.ofNat 32 i) = false) : s.memValue a n = 0#32 := by
  induction n with
  | zero => rfl
  | succ n ih =>
    rw [memValue_succ, ih fun i hi => h i (by omega), byteAt_of_illegal (h n (by omega))]
    simp

/-- An access of illegal bytes only warns for each of its addresses. -/
theorem illegalAddrs_eq_accessAddrs {size : Nat} {a : Word} {n : Nat}
    (h : ∀ i, i < n → legalAddr size (a + BitVec.ofNat 32 i) = false) : illegalAddrs size a n = accessAddrs a n := by
  unfold illegalAddrs accessAddrs
  rw [List.filter_eq_self]
  intro x hx
  obtain ⟨i, hi, rfl⟩ := List.mem_map.1 hx
  simp [h i (List.mem_range.1 hi)]

theorem accessAddrs_four (a : Word) : accessAddrs a 4 = [a, a + 1#32, a + 2#32, a + 3#32] := by
  simp [accessAddrs, List.range, List.range.loop]

/-- Settles O31: with an aligned pc all four bytes are legal or none is, and the word 0 is no instruction. -/
theorem fetchOutsideMemoryHalts : Obligations.FetchOutsideMemoryHalts := by
  unfold Obligations.FetchOutsideMemoryHalts
  intro s hp
  have alike := legalAddr_of_pcAligned s.cfg hp
  refine ⟨alike, fun hpc => ?_⟩
  have outside : ∀ i, i < 4 → legalAddr s.size (s.pc + BitVec.ofNat 32 i) = false := fun i hi => (alike i hi).trans hpc
  have zero := memValue_of_illegal outside
  refine ⟨zero, fun hrun => ?_⟩
  obtain ⟨t, hstep, hhalt, ⟨ws, hlog, hperm⟩, -⟩ := step_of_illegal_word hrun hp ⟨.unknownOpcode, by rw [zero]; rfl⟩
  rw [illegalAddrs_eq_accessAddrs outside, accessAddrs_four] at hperm
  exact ⟨t, ws, hstep, hhalt, hlog, hperm⟩

end Sys2Proof.Machine
end

section
/-! SUPPORT. What every tick keeps (R17, R18, R21, R184): the shapes of an instruction's effect, and the tick by them. -/

namespace Sys2Proof.Machine

section
variable {s t : State}

/-! ## What each shape of effect keeps -/

/-- No instruction counts a tick: the tick itself has done so. -/
theorem Effect.insnCount (h : Effect s t) : t.insnCount = s.insnCount := by
  cases h with
  | register | store | halt => simp

theorem Effect.setupKept (h : Effect s t) : SetupKept s t := by
  cases h with
  | register | store | halt => simp [SetupKept]

/-- The log grows by the warnings of the one access, all of them for illegal addresses. -/
theorem Effect.log (h : Effect s t) : ∃ ws, t.diagLog = s.diagLog ++ ws ∧ ∀ a ∈ ws, legalAddr s.size a = false := by
  cases h with
  | register as rd v p has =>
    exact ⟨arrangeWarnings s.orderCount as, by simp, fun a ha => has a ((arrangeWarnings_perm _ _).subset ha)⟩
  | store a n v =>
    exact ⟨arrangeWarnings s.orderCount (illegalAddrs s.size a n), by simp,
      fun x hx => illegalAddrs_illegal ((arrangeWarnings_perm _ _).subset hx)⟩
  | halt r => exact ⟨[], by simp, List.forall_mem_nil _⟩

/-! ## The tick -/

/-- What a tick can do: nothing when halted; the halt of a misaligned pc; or, after the fetch, an effect of one of the shapes. -/
theorem step_effect (h : step s = .next t) :
    (s.halted = true ∧ t = s) ∨
    (s.halted = false ∧ pcAligned s.pc = false ∧ t = s.countTick.halt .pcAlignment) ∨
    (s.halted = false ∧ pcAligned s.pc = true ∧ Effect s.afterFetch t) := by
  rcases step_next_cases h with halted | misaligned | ⟨hrun, hp, i, -, hexec⟩ | ⟨hrun, hp, why, -, rfl⟩
  · exact .inl halted
  · exact .inr (.inl misaligned)
  · exact .inr (.inr ⟨hrun, hp, effect_of_exec hexec⟩)
  · exact .inr (.inr ⟨hrun, hp, .halt _ (by decide) (by decide)⟩)

theorem step_setupKept (h : step s = .next t) : SetupKept s t := by
  rcases step_effect h with ⟨-, rfl⟩ | ⟨-, -, rfl⟩ | ⟨-, -, he⟩
  · exact ⟨rfl, rfl, rfl⟩
  · exact ⟨rfl, rfl, rfl⟩
  · exact he.setupKept

end

/-! ## The statements -/

/-- Settles O34: each case of the tick answers, and so does every instruction. -/
theorem everyStepAnswersANextState : Obligations.EveryStepAnswersANextState := by
  unfold Obligations.EveryStepAnswersANextState
  intro s
  rcases step_cases s with ⟨-, hs⟩ | ⟨-, -, hs⟩ | ⟨-, -, i, -, hs⟩ | ⟨-, -, why, -, hs⟩
  · exact ⟨_, hs⟩
  · exact ⟨_, hs⟩
  · obtain ⟨t, ht, -⟩ := exec_effect s.afterFetch i
    exact ⟨t, hs.trans ht⟩
  · exact ⟨_, hs⟩

/-- Settles O35: the tick counts before it does anything else, and nothing else counts. -/
theorem counterCountsRunningTicks : Obligations.CounterCountsRunningTicks := by
  unfold Obligations.CounterCountsRunningTicks
  intro s t h
  rcases step_effect h with ⟨hhalt, rfl⟩ | ⟨hrun, -, rfl⟩ | ⟨hrun, -, he⟩
  · simp [hhalt]
  · simp [hrun]
  · simp [hrun, he.insnCount]

/-- Settles O37: the fetch and then the instruction append their warnings. -/
theorem logOnlyGrowsByIllegalAddresses : Obligations.LogOnlyGrowsByIllegalAddresses := by
  unfold Obligations.LogOnlyGrowsByIllegalAddresses
  intro s t h
  rcases step_effect h with ⟨-, rfl⟩ | ⟨-, -, rfl⟩ | ⟨-, -, he⟩
  · exact ⟨[], by simp, List.forall_mem_nil _⟩
  · exact ⟨[], by simp, List.forall_mem_nil _⟩
  · obtain ⟨fetch, hfetch, hperm⟩ := afterFetch_log s
    obtain ⟨ws, hws, hillegal⟩ := he.log
    refine ⟨fetch ++ ws, by rw [hws, hfetch, List.append_assoc], fun a ha => ?_⟩
    rcases List.mem_append.1 ha with ha | ha
    · exact illegalAddrs_illegal (hperm.subset ha)
    · exact hillegal a ha

end Sys2Proof.Machine
end

section
/-! SUPPORT. The trace flags change nothing (R18): setting them commutes with the shapes an instruction ends in, and so with the
tick. -/

namespace Sys2Proof.Machine

section
variable (s : State) (f g : Bool)

theorem setTrace_writeBack (rd : Reg) (v : Word) : (s.setTrace f g).writeBack rd v = (s.writeBack rd v).setTrace f g := by
  unfold State.writeBack State.writeReg
  split <;> rfl

theorem setTrace_linkJump (rd : Reg) (p : Word) : (s.setTrace f g).linkJump rd p = (s.linkJump rd p).setTrace f g := by
  unfold State.linkJump State.writeReg
  split <;> rfl

theorem setTrace_branch (taken : Bool) (p : Word) : (s.setTrace f g).branch taken p = (s.branch taken p).setTrace f g := by
  cases taken <;> rfl

theorem setTrace_loadTo (rd : Reg) (a : Word) (n : Nat) (ext : Word → Word) :
    (s.setTrace f g).loadTo rd a n ext = (s.loadTo rd a n ext).setTrace f g :=
  setTrace_writeBack (s.afterRead a n) f g rd _

variable {s}

/-- Setting the trace flags commutes with every instruction. -/
theorem exec_setTrace {t : State} {i : Instr} (h : exec i s = .next t) : exec i (s.setTrace f g) = .next (t.setTrace f g) := by
  cases i with
  | fence fm pred succ rs1 rd =>
    cases hmode : s.cfg.fenceMode with
    | illegal =>
      rw [exec_fence_illegal s _ _ _ _ _ hmode] at h
      cases h
      exact exec_fence_illegal (s.setTrace f g) fm pred succ rs1 rd hmode
    | nop =>
      rw [exec_fence_nop s _ _ _ _ _ hmode] at h
      cases h
      exact exec_fence_nop (s.setTrace f g) fm pred succ rs1 rd hmode
  | ecall | ebreak | csrrw | csrrs | csrrc | csrrwi | csrrsi | csrrci | sb | sh | sw => cases h; rfl
  | jal | jalr => cases h; exact congrArg Host.Outcome.next (setTrace_linkJump ..)
  | beq | bne | blt | bge | bltu | bgeu => cases h; exact congrArg Host.Outcome.next (setTrace_branch ..)
  | lb | lh | lw | lbu | lhu => cases h; exact congrArg Host.Outcome.next (setTrace_loadTo ..)
  | lui | auipc | addi | slti | sltiu | xori | ori | andi | slli | srli | srai =>
    cases h
    exact congrArg Host.Outcome.next (setTrace_writeBack ..)
  | add | sub | sll | slt | sltu | xor | srl | sra | or | and =>
    cases h
    exact congrArg Host.Outcome.next (setTrace_writeBack ..)

/-- Setting the trace flags commutes with the tick. -/
theorem step_setTrace {t : State} (h : step s = .next t) : step (s.setTrace f g) = .next (t.setTrace f g) := by
  rcases step_next_cases h with ⟨hhalt, rfl⟩ | ⟨hrun, hp, rfl⟩ | ⟨hrun, hp, i, hf, hexec⟩ | ⟨hrun, hp, why, hf, rfl⟩
  · exact step_halted hhalt
  · exact step_misaligned (s := s.setTrace f g) hrun hp
  · exact (step_instr (s := s.setTrace f g) hrun hp hf).trans (exec_setTrace (s := s.afterFetch) f g hexec)
  · exact step_illegal (s := s.setTrace f g) hrun hp hf

end

/-- Settles O36: parameters and flags are kept by every tick, and setting the flags commutes with it. -/
theorem traceFlagsChangeNothing : Obligations.TraceFlagsChangeNothing :=
  ⟨fun _ _ => step_setupKept, fun _ _ f g => step_setTrace f g⟩

end Sys2Proof.Machine
end

section
/-! SUPPORT. A program sees only the visible state (R17, R18, R21): the shapes an instruction ends in, then the instructions, then the
tick, from two states that look the same to it. -/

namespace Sys2Proof.Machine

section
variable {s s' : State}

theorem SameToProgram.writeBack (h : SameToProgram s s') (rd : Reg) {v v' : Word} (hv : v = v') :
    SameToProgram (s.writeBack rd v) (s'.writeBack rd v') :=
  hv ▸ (h.writeReg rd v).advance

theorem SameToProgram.linkJump (h : SameToProgram s s') (rd : Reg) {p p' : Word} (hp : p = p') :
    SameToProgram (s.linkJump rd p) (s'.linkJump rd p') := by
  subst hp
  unfold State.linkJump
  rw [← h.pc]
  exact (h.writeReg rd _).setPc p

theorem SameToProgram.branch (h : SameToProgram s s') {taken taken' : Bool} (htaken : taken = taken') {p p' : Word}
    (hp : p = p') : SameToProgram (s.branch taken p) (s'.branch taken' p') := by
  subst htaken hp
  cases taken
  · exact h.advance
  · exact h.setPc p

theorem SameToProgram.effAddr (h : SameToProgram s s') (rs1 : Reg) (imm : BitVec 12) :
    s.effAddr rs1 imm = s'.effAddr rs1 imm := by
  rw [State.effAddr, State.effAddr, h.regs]

theorem SameToProgram.loadTo (h : SameToProgram s s') (rd rs1 : Reg) (imm : BitVec 12) (n : Nat) (ext : Word → Word) :
    SameToProgram (s.loadTo rd (s.effAddr rs1 imm) n ext) (s'.loadTo rd (s'.effAddr rs1 imm) n ext) := by
  rw [← h.effAddr]
  exact (h.warn _ _).writeBack rd (congrArg ext (h.memValue _ n))

theorem SameToProgram.store (h : SameToProgram s s') (hm : s.mem.wf) (hm' : s'.mem.wf) (rs1 rs2 : Reg) (imm : BitVec 12)
    {n : Nat} (hn : n ≤ 4) :
    SameToProgram (s.storeFrom (s.effAddr rs1 imm) n (s.readReg rs2)) (s'.storeFrom (s'.effAddr rs1 imm) n (s'.readReg rs2)) := by
  rw [← h.effAddr, ← h.regs]
  exact h.storeFrom hm hm' _ n _ hn

/-- Every instruction makes of two states that look the same two states that look the same. -/
theorem SameToProgram.exec {t t' : State} {i : Instr} (h : SameToProgram s s') (hm : s.mem.wf) (hm' : s'.mem.wf)
    (ht : exec i s = .next t) (ht' : exec i s' = .next t') : SameToProgram t t' := by
  cases i with
  | fence fm pred succ rs1 rd =>
    cases hmode : s.cfg.fenceMode with
    | illegal =>
      rw [exec_fence_illegal s _ _ _ _ _ hmode] at ht
      rw [exec_fence_illegal s' _ _ _ _ _ (h.cfg ▸ hmode)] at ht'
      cases ht; cases ht'
      exact h.halt _
    | nop =>
      rw [exec_fence_nop s _ _ _ _ _ hmode] at ht
      rw [exec_fence_nop s' _ _ _ _ _ (h.cfg ▸ hmode)] at ht'
      cases ht; cases ht'
      exact h.advance
  | ecall | ebreak => cases ht; cases ht'; exact h.halt _
  | csrrw | csrrs | csrrc | csrrwi | csrrsi | csrrci => cases ht; cases ht'; exact h.advance
  | sb | sh | sw => cases ht; cases ht'; exact h.store hm hm' _ _ _ (by decide)
  | lb | lh | lw | lbu | lhu => cases ht; cases ht'; exact h.loadTo ..
  | jal => cases ht; cases ht'; exact h.linkJump _ (congrArg (· + _) h.pc)
  | jalr => cases ht; cases ht'; exact h.linkJump _ (congrArg (· &&& _) (h.effAddr ..))
  | beq | bne | blt | bge | bltu | bgeu =>
    cases ht; cases ht'
    exact h.branch (by simp only [h.regs]) (congrArg (· + _) h.pc)
  | lui | auipc | addi | slti | sltiu | xori | ori | andi | slli | srli | srai =>
    cases ht; cases ht'
    exact h.writeBack _ (by simp only [h.regs, h.pc])
  | add | sub | sll | slt | sltu | xor | srl | sra | or | and =>
    cases ht; cases ht'
    exact h.writeBack _ (by simp only [h.regs])

theorem SameToProgram.countTick (h : SameToProgram s s') : SameToProgram s.countTick s'.countTick :=
  ⟨h.regs, h.pc, h.bytes, h.halted, h.reason, h.cfg⟩

theorem SameToProgram.afterFetch (h : SameToProgram s s') : SameToProgram s.afterFetch s'.afterFetch :=
  h.countTick.warn _ _

/-- States that look the same fetch the same. -/
theorem SameToProgram.fetched (h : SameToProgram s s') : s.fetched = s'.fetched := by
  unfold State.fetched State.fetchWord
  rw [h.cfg, h.pc, h.memValue]

end

/-- Settles O38: both states take the same case of the tick, and in it the same instruction. -/
theorem programSeesOnlyVisibleState : Obligations.ProgramSeesOnlyVisibleState := by
  unfold Obligations.ProgramSeesOnlyVisibleState
  intro s s' t t' hm hm' h ht ht'
  rcases step_next_cases ht with ⟨hhalt, rfl⟩ | ⟨hrun, hp, rfl⟩ | ⟨hrun, hp, i, hf, hexec⟩ | ⟨hrun, hp, why, hf, rfl⟩
  · rw [step_halted (h.halted ▸ hhalt)] at ht'
    cases ht'
    exact h
  · rw [step_misaligned (h.halted ▸ hrun) (h.pc ▸ hp)] at ht'
    cases ht'
    exact h.countTick.halt _
  · rw [step_instr (h.halted ▸ hrun) (h.pc ▸ hp) (h.fetched ▸ hf)] at ht'
    exact h.afterFetch.exec hm hm' hexec ht'
  · rw [step_illegal (h.halted ▸ hrun) (h.pc ▸ hp) (h.fetched ▸ hf)] at ht'
    cases ht'
    exact h.afterFetch.halt _

end Sys2Proof.Machine
end

section
/-! SUPPORT. The machine invariant: reset has it, every tick and the host's actions before a run keep it. -/

namespace Sys2Proof.Machine

theorem wf_nil : Memory.wf [] := ⟨.nil, List.forall_mem_nil _⟩

/-- The register file of a hart reset: slot 0 holds 0 (R201). -/
theorem resetRegs_zeroSlot : ((Vector.replicate 32 regFill).set 0 0#32)[0] = (0#32 : Word) := Vector.getElem_set_self _

/-- A hart reset starts a run from canonical memory and a log of illegal addresses (R200). -/
theorem machineInv_hartReset {s : State} (hm : s.mem.wf) (hin : s.mem.within s.size)
    (hlog : ∀ a ∈ s.diagLog, legalAddr s.size a = false) : MachineInv s.hartReset where
  canonical := hm
  inside := hin
  zeroSlot := resetRegs_zeroSlot
  reason := ⟨fun _ => rfl, fun _ => rfl⟩
  pcEven := BitVec.getLsbD_zero
  alignment := fun h => by cases h
  logged := hlog

/-- Settles O47: the state after reset is a hart reset of itself. -/
theorem resetHasTheInvariant : Obligations.ResetHasTheInvariant :=
  machineInv_hartReset (s := State.reset) wf_nil (List.forall_mem_nil _) (List.forall_mem_nil _)

section
variable {s t : State}

/-- The count of the tick and the fetch's warnings keep the invariant. -/
theorem MachineInv.afterFetch (h : MachineInv s) : MachineInv s.afterFetch where
  canonical := h.canonical
  inside := h.inside
  zeroSlot := h.zeroSlot
  reason := h.reason
  pcEven := h.pcEven
  alignment := h.alignment
  logged := fun a ha => by
    rcases List.mem_append.1 ha with ha | ha
    · exact h.logged a ha
    · exact illegalAddrs_illegal ((arrangeWarnings_perm _ _).subset ha)

/-- An effect keeps memory canonical and inside its size, and x0's slot at 0. -/
theorem Effect.stored (he : Effect s t) (h : MachineInv s) : t.mem.wf ∧ t.mem.within s.size ∧ t.regs[0] = 0#32 := by
  cases he with
  | register as rd v p =>
    simp only [setPc_mem, writeReg_mem, warn_mem, setPc_regs, writeReg_zeroSlot, warn_regs]
    exact ⟨h.canonical, h.inside, h.zeroSlot⟩
  | store a n v => exact ⟨writeBytes_wf h.canonical .., writeBytes_within h.inside a v n, h.zeroSlot⟩
  | halt r => exact ⟨h.canonical, h.inside, h.zeroSlot⟩

/-- An effect on a running hart leaves it running, or halts it where it stands for a reason other than alignment. -/
theorem Effect.running_or_halted (he : Effect s t) (hrun : s.halted = false) :
    (t.halted = false ∧ t.haltReason = s.haltReason) ∨
    (t.halted = true ∧ t.haltReason ≠ .none ∧ t.haltReason ≠ .pcAlignment ∧ t.pc = s.pc) := by
  cases he with
  | register | store => exact .inl (by simp [hrun])
  | halt r hnone halign => exact .inr ⟨rfl, hnone, halign, rfl⟩

/-- An effect on a running hart with an aligned pc keeps the invariant, if it leaves the pc even. -/
theorem MachineInv.effect (h : MachineInv s) (hrun : s.halted = false) (hp : pcAligned s.pc = true) (he : Effect s t)
    (heven : t.pc.getLsbD 0 = false) : MachineInv t := by
  obtain ⟨hm, hin, hzero⟩ := he.stored h
  obtain ⟨hcfg, -⟩ := he.setupKept
  have hsize : t.size = s.size := congrArg memSize hcfg
  obtain ⟨ws, hlog, hws⟩ := he.log
  have hhalt := he.running_or_halted hrun
  refine ⟨hm, hsize ▸ hin, hzero, ?_, heven, fun ht => ?_, fun a ha => ?_⟩
  · rcases hhalt with ⟨hr, hreason⟩ | ⟨hr, hnone, -⟩
    · simp [hr, hreason, h.reason.1 hrun]
    · simp [hr, hnone]
  · rcases hhalt with ⟨hr, -⟩ | ⟨-, -, halign, hpc⟩
    · rw [hr] at ht
      cases ht
    · simp [halign, hpc, hp]
  · rw [hsize]
    rw [hlog] at ha
    exact (List.mem_append.1 ha).elim (h.logged a) (hws a)

/-- A decoded instruction leaves an even pc even: displacements are even and JALR clears bit 0. -/
theorem even_of_exec {mode : FenceMode} {w : Word} {i : Instr} (hd : decode mode w = .instr i)
    (hpc : s.pc.getLsbD 0 = false) (hexec : exec i s = .next t) : t.pc.getLsbD 0 = false := by
  rcases exec_pc hexec with h | ⟨-, h⟩ | ⟨-, -, h⟩
  · rw [h]
    exact even_add hpc (by decide)
  · rw [h, hpc]
  · exact h (decode_wellFormed hd) hpc

/-- The halt of a misaligned pc keeps the invariant (R181). -/
theorem MachineInv.halt_misaligned (h : MachineInv s) (hp : pcAligned s.pc = false) :
    MachineInv (s.countTick.halt .pcAlignment) where
  canonical := h.canonical
  inside := h.inside
  zeroSlot := h.zeroSlot
  reason := ⟨fun hr => (by cases hr), fun hr => (by cases hr)⟩
  pcEven := h.pcEven
  alignment := fun _ => ⟨fun _ => hp, fun _ => rfl⟩
  logged := h.logged

/-- A tick keeps the invariant: by what it leads to, after the fetch an effect that leaves the pc even. -/
theorem MachineInv.step (h : MachineInv s) (hstep : step s = .next t) : MachineInv t := by
  rcases step_next_cases hstep with ⟨-, rfl⟩ | ⟨-, hp, rfl⟩ | ⟨hrun, hp, i, hf, hexec⟩ | ⟨hrun, hp, why, hf, rfl⟩
  · exact h
  · exact h.halt_misaligned hp
  · exact h.afterFetch.effect hrun hp (effect_of_exec hexec) (even_of_exec (s := s.afterFetch) hf h.pcEven hexec)
  · exact h.afterFetch.effect hrun hp (.halt _ (by decide) (by decide)) h.pcEven

/-- The invariant holds along every run from a state that has it. -/
theorem MachineInv.reachable (h : MachineInv s) (hr : Reachable s t) : MachineInv t := by
  induction hr with
  | start => exact h
  | tick _ hstep ih => exact ih.step hstep

/-- An image loads exactly when it fits (R203). -/
theorem loadImage_eq_some {image : List Byte} :
    s.loadImage image = some t ↔ image.length ≤ s.size ∧ { s with mem := placeBytes 0 image s.mem } = t := by
  unfold State.loadImage
  split
  case isTrue fits => simp [fits]
  case isFalse long => simp [long]

/-- A run starts with the invariant: construction, an image that fits, a hart reset. -/
theorem machineInv_of_runStart (h : RunStart s) : MachineInv s := by
  obtain ⟨c, image, i, r, m, hload, rfl⟩ := h
  obtain ⟨fits, rfl⟩ := loadImage_eq_some.1 hload
  refine machineInv_hartReset (placeBytes_wf wf_nil ..) (placeBytes_within (List.forall_mem_nil _) _ _ ?_)
    (List.forall_mem_nil _)
  rwa [Nat.zero_add]

end

/-- Settles O46: the invariant's step lemma. -/
theorem everyStepKeepsTheInvariant : Obligations.EveryStepKeepsTheInvariant :=
  fun _ _ => MachineInv.step

/-- Settles O48: the start of a run has the invariant, and ticks keep it. -/
theorem everyRunKeepsTheInvariant : Obligations.EveryRunKeepsTheInvariant :=
  fun _ _ hs hr => (machineInv_of_runStart hs).reachable hr

end Sys2Proof.Machine
end

section
/-! SUPPORT. The byte accesses (R32, R34), the word round trip (R37), and the canonical form of memory. -/

namespace Sys2Proof.Machine

theorem byteAt_of_legal {s : State} {a : Word} (h : legalAddr s.size a = true) : s.byteAt a = s.mem.getByte a.toNat :=
  if_pos h

/-! ## One byte -/

theorem afterRead_one_of_legal {s : State} {a : Word} (h : legalAddr s.size a = true) : s.afterRead a 1 = s := by
  rw [State.afterRead, illegalAddrs_one, if_pos h, warn_nil]

theorem afterRead_one_of_illegal {s : State} {a : Word} (h : legalAddr s.size a = false) :
    s.afterRead a 1 = { s with diagLog := s.diagLog ++ [a], orderCount := s.orderCount + 1 } := by
  rw [State.afterRead, illegalAddrs_one, h]
  rfl

theorem memValue_one_of_illegal {s : State} {a : Word} (h : legalAddr s.size a = false) : s.memValue a 1 = 0#32 := by
  rw [memValue_one, byteAt_of_illegal h]
  rfl

/-- Settles O40: value and effect of a byte read, by whether the address is legal. -/
theorem byteReadRule : Obligations.ByteReadRule := by
  refine fun s a => ⟨fun h => ⟨?_, afterRead_one_of_legal h⟩, fun h => ⟨memValue_one_of_illegal h, afterRead_one_of_illegal h⟩⟩
  rw [memValue_one, byteAt_of_legal h, BitVec.toNat_setWidth_of_le (by decide)]

/-- Every byte after a byte write (R34). -/
theorem byteAt_memWrite_one {s : State} (hm : s.mem.wf) (a v x : Word) :
    (s.memWrite a 1 v).byteAt x =
      if legalAddr s.size x then (if x = a then v.extractLsb' 0 8 else s.byteAt x) else 0#8 := by
  rw [State.byteAt, memWrite_mem, memWrite_size, writeBytes_one, read8_write8 hm]
  rfl

/-- An illegal byte write leaves memory alone (R34). -/
theorem memWrite_one_mem_of_illegal {s : State} {a : Word} (h : legalAddr s.size a = false) (v : Word) :
    (s.memWrite a 1 v).mem = s.mem := by
  rw [memWrite_mem, writeBytes_one, write8, h]
  rfl

theorem memWrite_one_log (s : State) (a v : Word) :
    (s.memWrite a 1 v).diagLog = if legalAddr s.size a then s.diagLog else s.diagLog ++ [a] := by
  rw [memWrite_diagLog, illegalAddrs_one]
  split
  · exact List.append_nil _
  · rfl

/-- Settles O41: bytes and log of a byte write, by whether the address is legal. -/
theorem byteWriteRule : Obligations.ByteWriteRule := by
  refine fun s a v hm => ⟨fun h => ⟨?_, fun x hx => ?_, ?_⟩, fun h => ⟨memWrite_one_mem_of_illegal h v, ?_⟩, rfl, rfl, rfl⟩
  · rw [byteAt_memWrite_one hm, if_pos h, if_pos rfl]
  · rw [byteAt_memWrite_one hm, if_neg hx]
    split
    case isTrue => rfl
    case isFalse illegal => rw [byteAt_of_illegal (by simpa using illegal)]
  · rw [memWrite_one_log, if_pos h]
  · rw [memWrite_one_log, h]
    rfl

/-- Settles O43: the round trip of a word, the split of reads, and an illegal byte. -/
theorem memoryPrimitiveProperties : Obligations.MemoryPrimitiveProperties :=
  ⟨fun _ a v hm hl => memValue_memWrite_word hm a v hl, fun s a => memValue_add s a 1 1, fun s a => memValue_add s a 2 2,
    fun _ _ v h => ⟨memValue_one_of_illegal h, memWrite_one_mem_of_illegal h v⟩⟩

/-! ## The canonical form -/

theorem getByte_cons_self (a : Nat) (b : Byte) (m : Memory) : Memory.getByte ((a, b) :: m) a = b := if_pos rfl

theorem getByte_cons_of_ne {a x : Nat} (h : x ≠ a) (b : Byte) (m : Memory) : Memory.getByte ((a, b) :: m) x = m.getByte x :=
  if_neg h

/-- The parts of a canonical memory with a first cell. -/
theorem wf_cons {a : Nat} {b : Byte} {m : Memory} (h : Memory.wf ((a, b) :: m)) :
    b ≠ memFill ∧ (∀ c ∈ m, a < c.1) ∧ m.wf := by
  obtain ⟨hrising, hfill⟩ := h
  obtain ⟨hfirst, hrest⟩ := List.pairwise_cons.1 hrising
  exact ⟨hfill _ List.mem_cons_self, hfirst, hrest, fun c hc => hfill c (List.mem_cons_of_mem _ hc)⟩

/-- The first cell of a canonical memory is seen by a read: a memory that starts later does not hold the same. -/
theorem not_below_of_getByte_eq {a : Nat} {b : Byte} {m m' : Memory} (hb : b ≠ memFill)
    (h : ∀ x, Memory.getByte ((a, b) :: m) x = m'.getByte x) : ¬ ∀ c ∈ m', a < c.1 := by
  intro below
  have := h a
  rw [getByte_cons_self, getByte_below below] at this
  exact hb this

/-- Two canonical memories that hold the same start at the same address. -/
theorem first_le_of_getByte_eq {a a' : Nat} {b b' : Byte} {m m' : Memory} (hb : b ≠ memFill) (hfirst' : ∀ c ∈ m', a' < c.1)
    (h : ∀ x, Memory.getByte ((a, b) :: m) x = Memory.getByte ((a', b') :: m') x) : a' ≤ a := by
  by_contra hlt
  refine not_below_of_getByte_eq hb h (List.forall_mem_cons.2 ⟨?_, fun c hc => ?_⟩)
  · exact Nat.not_le.1 hlt
  · exact (Nat.not_le.1 hlt).trans (hfirst' c hc)

/-- A canonical memory is determined by what it holds: the first cells agree, and then the rests hold the same. -/
theorem eq_of_getByte_eq {m m' : Memory} (hm : m.wf) (hm' : m'.wf) (h : ∀ x, m.getByte x = m'.getByte x) : m = m' := by
  induction m generalizing m' with
  | nil =>
    cases m' with
    | nil => rfl
    | cons c' m' => exact absurd (by simp) (not_below_of_getByte_eq (wf_cons hm').1 fun x => (h x).symm)
  | cons c m ih =>
    obtain ⟨a, b⟩ := c
    obtain ⟨hb, hfirst, hrest⟩ := wf_cons hm
    cases m' with
    | nil => exact absurd (by simp) (not_below_of_getByte_eq hb h)
    | cons c' m' =>
      obtain ⟨a', b'⟩ := c'
      obtain ⟨hb', hfirst', hrest'⟩ := wf_cons hm'
      obtain rfl : a = a' :=
        Nat.le_antisymm (first_le_of_getByte_eq hb' hfirst fun x => (h x).symm) (first_le_of_getByte_eq hb hfirst' h)
      obtain rfl : b = b' := by simpa only [getByte_cons_self] using h a
      rw [ih hrest hrest' fun x => ?_]
      by_cases hx : x = a
      · rw [hx, getByte_below hfirst, getByte_below hfirst']
      · simpa only [getByte_cons_of_ne hx] using h x

/-- Settles O44, by induction on the first of the two lists. -/
theorem canonicalMemoryIsUnique : Obligations.CanonicalMemoryIsUnique :=
  fun _ _ => eq_of_getByte_eq

end Sys2Proof.Machine
end

section
/-! SUPPORT. A store and the fetch after it (R44), byte by byte. -/

namespace Sys2Proof.Machine

/-- A byte of the fetched word is the byte at its address. -/
theorem fetchWord_byte (s : State) {k : Nat} (hk : k < 4) :
    s.fetchWord.extractLsb' (8 * k) 8 = s.byteAt (s.pc + BitVec.ofNat 32 k) :=
  memValue_byte s s.pc k hk

section
variable {s : State} {a : Word} {n : Nat}

/-- A byte of the next word that the store reaches: byte `j` of the stored value, if it is inside memory. -/
theorem fetchWord_storeFrom_reached (hm : s.mem.wf) (hn : n ≤ 4) (v : Word) {k j : Nat} (hk : k < 4) (hj : j < n)
    (h : s.pc + 4#32 + BitVec.ofNat 32 k = a + BitVec.ofNat 32 j) :
    (s.storeFrom a n v).fetchWord.extractLsb' (8 * k) 8 =
      if legalAddr s.size (s.pc + 4#32 + BitVec.ofNat 32 k) then v.extractLsb' (8 * j) 8 else 0#8 := by
  obtain ⟨⟨hstored, -⟩, -, hpc, -⟩ := storeFrom_frame hm a n v hn
  rw [fetchWord_byte _ hk, hpc, h, hstored j hj]

/-- A byte of the next word that the store does not reach is the old one. -/
theorem fetchWord_storeFrom_apart (hm : s.mem.wf) (hn : n ≤ 4) (v : Word) {k : Nat} (hk : k < 4)
    (h : ∀ j, j < n → s.pc + 4#32 + BitVec.ofNat 32 k ≠ a + BitVec.ofNat 32 j) :
    (s.storeFrom a n v).fetchWord.extractLsb' (8 * k) 8 = s.byteAt (s.pc + 4#32 + BitVec.ofNat 32 k) := by
  obtain ⟨⟨-, hkept⟩, -, hpc, -⟩ := storeFrom_frame hm a n v hn
  rw [fetchWord_byte _ hk, hpc, hkept _ h]

/-- A word stored over the next instruction, all of it inside memory, is the word fetched. -/
theorem fetchWord_storeFrom_over (hm : s.mem.wf) (v : Word) (h : a = s.pc + 4#32)
    (hl : ∀ i, i < 4 → legalAddr s.size (s.pc + 4#32 + BitVec.ofNat 32 i) = true) : (s.storeFrom a 4 v).fetchWord = v := by
  subst h
  exact memValue_memWrite_word hm _ v hl

end

/-- Settles O45: the three stores are one shape, of 1, 2 and 4 bytes. -/
theorem storeIsSeenByTheNextFetch : Obligations.StoreIsSeenByTheNextFetch := by
  unfold Obligations.StoreIsSeenByTheNextFetch
  intro s rs1 rs2 imm hm p hp
  have store : exec p.1 s = .next (s.storeFrom (s.effAddr rs1 imm) p.2 (s.readReg rs2)) ∧ p.2 ≤ 4 := by
    simp only [List.mem_cons, List.not_mem_nil, or_false] at hp
    rcases hp with rfl | rfl | rfl
    · exact ⟨exec_sb .., by simp⟩
    · exact ⟨exec_sh .., by simp⟩
    · exact ⟨exec_sw .., by simp⟩
  obtain ⟨hexec, hn⟩ := store
  refine ⟨_, hexec, rfl, fun _ _ => fetchWord_storeFrom_reached hm hn _, fun _ => fetchWord_storeFrom_apart hm hn _,
    fun hword => ?_⟩
  rw [hword]
  exact fetchWord_storeFrom_over hm _

end Sys2Proof.Machine
end

section
/-! SUPPORT. Reset (R200, R201) and the image load (R202, R203). -/

namespace Sys2Proof.Machine

/-- Every register after a hart reset (R201). -/
theorem hartReset_readReg (s : State) (r : Reg) : s.hartReset.readReg r = if r = 0 then 0#32 else 0xF0F0F0F0#32 := by
  by_cases hr : r = 0
  · subst hr
    rfl
  · have slot : (0 : Nat) ≠ r.val := fun e => hr (Fin.ext e.symm)
    rw [readReg_of_ne_zero _ hr, if_neg hr]
    simp only [hartReset_regs, Vector.getElem_set_ne _ _ slot, Vector.getElem_replicate]
    rfl

/-- Settles O49: the reset's registers, and construction's, which are the same. -/
theorem registerFileReset : Obligations.RegisterFileReset :=
  ⟨hartReset_readReg, fun _ => resetRegs_zeroSlot, fun _ => rfl⟩

/-- Settles O50: the registers, and field by field the rest. -/
theorem hartResetRule : Obligations.HartResetRule :=
  fun s => ⟨hartReset_readReg s, hartReset_pc s, hartReset_halted s, hartReset_haltReason s, hartReset_insnCount s,
    hartReset_mem s, hartReset_diagLog s, rfl, rfl, rfl⟩

/-- An image placed in fresh memory: its own bytes, the fill byte beyond (R202, R203). -/
theorem getByte_placeBytes_fresh (image : List Byte) (x : Nat) :
    (placeBytes 0 image []).getByte x = (image[x]?).getD memFill := by
  rw [getByte_placeBytes wf_nil]
  split
  case isTrue => rfl
  case isFalse beyond => rw [List.getElem?_eq_none (by omega)]; rfl

/-- Settles O51: the image loads exactly when it fits, and then only memory has changed. -/
theorem imageLoadRule : Obligations.ImageLoadRule := by
  refine fun c image => ⟨fun fits => ?_, fun long => if_neg (Nat.not_le.2 long)⟩
  refine ⟨_, loadImage_eq_some.2 ⟨fits, rfl⟩, fun a => ?_, fun _ => rfl, rfl, rfl, rfl, rfl, rfl, rfl, rfl, rfl⟩
  exact congrArg (ite _ · _) (getByte_placeBytes_fresh image a.toNat)

end Sys2Proof.Machine
end

section
/-! SUPPORT. The run loop (R205, R206): when it stops, when it ticks, and what it has reached. -/

namespace Sys2Proof.Machine

section
variable {limit : Nat} {s t u : State}

theorem runContinues_iff : runContinues limit s = true ↔ s.halted = false ∧ (limit = 0 ∨ s.insnCount < limit) := by
  simp [runContinues]

theorem runContinues_halted (h : s.halted = true) : runContinues limit s = false := by
  simp [runContinues, h]

theorem runContinues_atLimit (hlimit : limit ≠ 0) (h : limit ≤ s.insnCount) : runContinues limit s = false := by
  simp [runContinues, hlimit, h]

theorem runLoop_stop (h : runContinues limit s = false) (fuel : Nat) : runLoop limit fuel s = .next s := by
  cases fuel with
  | zero => rfl
  | succ fuel => simp [runLoop, h]

theorem runLoop_tick (h : runContinues limit s = true) (hstep : step s = .next u) (fuel : Nat) :
    runLoop limit (fuel + 1) s = runLoop limit fuel u := by
  simp [runLoop, h, hstep]

theorem Reachable.head (hstep : step s = .next u) (h : Reachable u t) : Reachable s t := by
  induction h with
  | start => exact .tick .start hstep
  | tick _ ht ih => exact .tick ih ht

/-- A running hart's tick, and its count. -/
theorem step_counts (hrun : s.halted = false) : ∃ u, step s = .next u ∧ u.insnCount = s.insnCount + 1 := by
  obtain ⟨u, hu⟩ := everyStepAnswersANextState s
  exact ⟨u, hu, by rw [counterCountsRunningTicks s u hu, hrun]; rfl⟩

/-- A run that is `n` ticks before its limit ends within `n` ticks. -/
theorem runLoop_limited (hlimit : limit ≠ 0) {n : Nat} (hn : limit - s.insnCount = n) (hle : s.insnCount ≤ limit) :
    ∃ t, (∀ fuel, n ≤ fuel → runLoop limit fuel s = .next t) ∧ (t.halted = true ∨ t.insnCount = limit) ∧
      t.insnCount ≤ limit ∧ Reachable s t := by
  induction n generalizing s with
  | zero =>
    have atLimit := runContinues_atLimit (s := s) hlimit (by omega)
    exact ⟨s, fun fuel _ => runLoop_stop atLimit fuel, .inr (by omega), hle, .start⟩
  | succ n ih =>
    by_cases hhalt : s.halted = true
    · exact ⟨s, fun fuel _ => runLoop_stop (runContinues_halted hhalt) fuel, .inl hhalt, hle, .start⟩
    · have hrun : s.halted = false := by simpa using hhalt
      have goes : runContinues limit s = true := runContinues_iff.2 ⟨hrun, .inr (by omega)⟩
      obtain ⟨u, hstep, hcount⟩ := step_counts hrun
      obtain ⟨t, hloop, hend, hbound, hreach⟩ := ih (s := u) (by omega) (by omega)
      refine ⟨t, fun fuel hfuel => ?_, hend, hbound, hreach.head hstep⟩
      obtain ⟨fuel, rfl⟩ := Nat.exists_eq_add_of_le' (Nat.le_of_add_left_le hfuel)
      rw [runLoop_tick goes hstep, hloop fuel (by omega)]

theorem endOfRun_of_halted_or_limit (hlimit : limit ≠ 0) (h : t.halted = true ∨ t.insnCount = limit) :
    endOfRun limit t = true := by
  rcases h with h | h <;> simp [endOfRun, h, hlimit]

/-- The loop without a limit goes on exactly while the hart runs. -/
theorem runContinues_zero (s : State) : runContinues 0 s = !s.halted := by
  simp [runContinues]

theorem endOfRun_zero (s : State) : endOfRun 0 s = s.halted := by
  simp [endOfRun]

/-- A run without a limit: it has made all its ticks, or it has halted and makes no more. -/
theorem runLoop_unlimited (fuel : Nat) (s : State) :
    ∃ t, runLoop 0 fuel s = .next t ∧ Reachable s t ∧ (t.halted = false → t.insnCount = s.insnCount + fuel) ∧
      (t.halted = true → ∀ more, fuel ≤ more → runLoop 0 more s = .next t) := by
  induction fuel generalizing s with
  | zero => exact ⟨s, rfl, .start, fun _ => rfl, fun hhalt more _ => runLoop_stop (runContinues_halted hhalt) more⟩
  | succ fuel ih =>
    by_cases hhalt : s.halted = true
    · have stopped := runLoop_stop (limit := 0) (runContinues_halted hhalt)
      refine ⟨s, stopped _, .start, fun hrun => ?_, fun _ more _ => stopped more⟩
      rw [hhalt] at hrun
      cases hrun
    · have hrun : s.halted = false := by simpa using hhalt
      have goes : runContinues 0 s = true := runContinues_iff.2 ⟨hrun, .inl rfl⟩
      obtain ⟨u, hstep, hcount⟩ := step_counts hrun
      obtain ⟨t, hloop, hreach, hall, hstable⟩ := ih u
      refine ⟨t, (runLoop_tick goes hstep fuel).trans hloop, hreach.head hstep, fun ht => ?_, fun ht more hmore => ?_⟩
      · rw [hall ht, hcount]
        omega
      · obtain ⟨more, rfl⟩ := Nat.exists_eq_add_of_le' (Nat.le_of_add_left_le hmore)
        rw [runLoop_tick goes hstep, hstable ht more (by omega)]

end

/-- Settles O52, by induction on the ticks left to the limit. -/
theorem limitedRunEnds : Obligations.LimitedRunEnds := by
  unfold Obligations.LimitedRunEnds
  intro limit s hlimit hle
  obtain ⟨t, hloop, hend, hbound, hreach⟩ := runLoop_limited hlimit rfl hle
  exact ⟨t, hloop, hend, hbound, endOfRun_of_halted_or_limit hlimit hend, hreach⟩

/-- Settles O53, by induction on the ticks given to the loop. -/
theorem unlimitedRunStopsOnlyHalted : Obligations.UnlimitedRunStopsOnlyHalted :=
  ⟨fun s => ⟨runContinues_zero s, endOfRun_zero s⟩, runLoop_unlimited⟩

end Sys2Proof.Machine
end
